-- ==== Sys2Proof/Word.lean ====
section
/-! DEFINITION. The two value types of the engine (00_scope.md R7). -/

namespace Sys2Proof

/-- A word: 32 bits, unsigned (R7). -/
abbrev Word := BitVec 32

/-- A byte: 8 bits, unsigned (R7). -/
abbrev Byte := BitVec 8

end Sys2Proof
end

