-- ==== Sys2Proof/Syntax.lean ====
section
/-! DEFINITION. The operations of the engine, one constructor per row of spec/opcode_table.json, the names of the phases,
and the two encoding spaces (30_encoding.md R60). -/

namespace Sys2Proof

/-- The eight phases of the sequencer (10_state.md R23). -/
inductive Phase where
  | idle | check | sched | init | round | final | done | error
deriving DecidableEq, Repr

/-- The six host commands (R62) and the six micro-operations (R66). -/
inductive Instr where
  /-- `NOP` (R117). -/
  | nop
  /-- `PUSH b` (R118). -/
  | push (b : Byte)
  /-- `START` (R119). -/
  | start
  /-- `CLR` (R120). -/
  | clr
  /-- `RDS` (R121). -/
  | rds
  /-- `RDD k` (R122). -/
  | rdd (k : BitVec 5)
  /-- `CHK` (R123). -/
  | chk
  /-- `LDW t`, `0 <= t <= 15` (R88). -/
  | ldw (t : BitVec 4)
  /-- `EXW t`, `16 <= t <= 63` (R89): the lower bound is checked by `Instr.wellFormed`. -/
  | exw (t : BitVec 6)
  /-- `INIT` (R96). -/
  | init
  /-- `RND t`, `0 <= t <= 63` (R103). -/
  | rnd (t : BitVec 6)
  /-- `FIN` (R112). -/
  | fin
deriving DecidableEq, Repr

/-- The two encoding spaces (R60). -/
inductive Space where
  | cmd | seq
deriving DecidableEq, Repr

/-- A word of one of the two encoding spaces: an 11-bit command word (R61) or a 9-bit sequencer word (R65). -/
inductive EncodedWord where
  | cmd (w : BitVec 11)
  | seq (w : BitVec 9)
deriving DecidableEq, Repr

/-- The space an operation is encoded in: a command or a micro-operation (R1, R60). -/
def Instr.space : Instr → Space
  | .nop => .cmd
  | .push _ => .cmd
  | .start => .cmd
  | .clr => .cmd
  | .rds => .cmd
  | .rdd _ => .cmd
  | .chk => .seq
  | .ldw _ => .seq
  | .exw _ => .seq
  | .init => .seq
  | .rnd _ => .seq
  | .fin => .seq

/-- The mnemonic of an operation, as spec/opcode_table.json spells it. -/
def Instr.mnemonic : Instr → String
  | .nop => "NOP"
  | .push _ => "PUSH"
  | .start => "START"
  | .clr => "CLR"
  | .rds => "RDS"
  | .rdd _ => "RDD"
  | .chk => "CHK"
  | .ldw _ => "LDW"
  | .exw _ => "EXW"
  | .init => "INIT"
  | .rnd _ => "RND"
  | .fin => "FIN"

end Sys2Proof
end

