-- ==== Sys2Proof/WellFormed.lean ====
section
/-! DEFINITION. Which terms of `Instr` are operations of the table: every operand lies in its field by its type, and the
one constraint the table adds is `t >= 16` for `EXW` (30_encoding.md R66, R72). -/

namespace Sys2Proof

/-- The check of the table's one operand constraint. -/
def Instr.wellFormed : Instr → Bool
  | .exw t => decide (16 ≤ t.toNat)
  | .nop => true
  | .push _ => true
  | .start => true
  | .clr => true
  | .rds => true
  | .rdd _ => true
  | .chk => true
  | .ldw _ => true
  | .init => true
  | .rnd _ => true
  | .fin => true

/-- An operation of the table. -/
abbrev Instr.WellFormed (i : Instr) : Prop := i.wellFormed = true

end Sys2Proof
end

