-- ==== Sys2Proof/Decode.lean ====
section
/-! DEFINITION. Decoding of command words and sequencer words, the encoder, and the opcode table as data (30_encoding.md). -/

namespace Sys2Proof

/-- The code of a phase in `SEQ[8:6]` (10_state.md R23). -/
def Phase.code : Phase → BitVec 3
  | .idle => 0b000#3
  | .check => 0b001#3
  | .sched => 0b010#3
  | .init => 0b011#3
  | .round => 0b100#3
  | .final => 0b101#3
  | .done => 0b110#3
  | .error => 0b111#3

/-- The phase a 3-bit code names (R23): all eight codes are used. -/
def Phase.ofCode (c : BitVec 3) : Phase :=
  match c.toNat with
  | 0 => .idle
  | 1 => .check
  | 2 => .sched
  | 3 => .init
  | 4 => .round
  | 5 => .final
  | 6 => .done
  | _ => .error

/-- `op = cmd[10:8]` (R61). -/
def commandOp (w : BitVec 11) : BitVec 3 := w.extractLsb' 8 3

/-- `data = cmd[7:0]`, the operand `b` of shape `CB` (R61, R63). -/
def commandByte (w : BitVec 11) : Byte := w.extractLsb' 0 8

/-- `data[4:0]`, the operand `k` of shape `CK`; `data[7:5]` is ignored (R61, R63). -/
def commandIndex (w : BitVec 11) : BitVec 5 := w.extractLsb' 0 5

/-- `PH = SEQ[8:6]` (R65). -/
def sequencerPhase (w : BitVec 9) : Phase := Phase.ofCode (w.extractLsb' 6 3)

/-- `T = SEQ[5:0]` (R65). -/
def sequencerIndex (w : BitVec 9) : BitVec 6 := w.extractLsb' 0 6

/-- `SEQ = PH ++ T` (R22). -/
def sequencerWord (ph : Phase) (t : BitVec 6) : BitVec 9 := (ph.code ++ t : BitVec (3 + 6))

/-- The command a command word asks for. Total: the reserved opcodes `0b110` and `0b111` behave as `NOP` (R62, R67). -/
def decodeCommand (w : BitVec 11) : Instr :=
  match (commandOp w).toNat with
  | 0 => .nop
  | 1 => .push (commandByte w)
  | 2 => .start
  | 3 => .clr
  | 4 => .rds
  | 5 => .rdd (commandIndex w)
  | _ => .nop

/-- Why a sequencer word selects no micro-operation. -/
inductive NoMicroOp where
  /-- `IDLE`, `DONE` or `ERROR` with `T = 0`: the engine waits for the host (R66, R125). -/
  | waiting
  /-- One of the 378 words that cannot be reached: the engine is stuck (R68). -/
  | unreachable
deriving DecidableEq, Repr

/-- The micro-operation that phase and index select (R66). -/
def selectMicroOp (ph : Phase) (t : BitVec 6) : Except NoMicroOp Instr :=
  match ph with
  | .sched => if t.toNat < 16 then .ok (.ldw (t.extractLsb' 0 4)) else .ok (.exw t)
  | .round => .ok (.rnd t)
  | .check => if t = 0#6 then .ok .chk else .error .unreachable
  | .init => if t = 0#6 then .ok .init else .error .unreachable
  | .final => if t = 0#6 then .ok .fin else .error .unreachable
  | .idle => if t = 0#6 then .error .waiting else .error .unreachable
  | .done => if t = 0#6 then .error .waiting else .error .unreachable
  | .error => if t = 0#6 then .error .waiting else .error .unreachable

/-- The micro-operation a sequencer word selects (R66, R68). -/
def decodeSequencer (w : BitVec 9) : Except NoMicroOp Instr :=
  selectMicroOp (sequencerPhase w) (sequencerIndex w)

/-- The operation a word of either space stands for. -/
def decode : EncodedWord → Except NoMicroOp Instr
  | .cmd w => .ok (decodeCommand w)
  | .seq w => decodeSequencer w

/-- The word of an operation: the canonical command word of R62 (ignored bits zero), the sequencer word of R66. -/
def encode : Instr → EncodedWord
  | .nop => .cmd 0x000#11
  | .push b => .cmd (0b001#3 ++ b : BitVec (3 + 8))
  | .start => .cmd 0x200#11
  | .clr => .cmd 0x300#11
  | .rds => .cmd 0x400#11
  | .rdd k => .cmd (0b101#3 ++ 0b000#3 ++ k : BitVec (3 + 3 + 5))
  | .chk => .seq 0b001000000#9
  | .ldw t => .seq (0b01000#5 ++ t : BitVec (5 + 4))
  | .exw t => .seq (0b010#3 ++ t : BitVec (3 + 6))
  | .init => .seq 0b011000000#9
  | .rnd t => .seq (0b100#3 ++ t : BitVec (3 + 6))
  | .fin => .seq 0b101000000#9

/-- One row of spec/opcode_table.json: "a word `w` of that space selects the row when `w AND mask = match`" (R72). -/
structure OpcodeRow where
  mnemonic : String
  space : Space
  pattern : Nat
  mask : Nat
deriving DecidableEq, Repr

/-- The rows of spec/opcode_table.json, in its order (R72). -/
def opcodeTable : List OpcodeRow :=
  [ ⟨"NOP", .cmd, 0x000, 0x700⟩, ⟨"PUSH", .cmd, 0x100, 0x700⟩, ⟨"START", .cmd, 0x200, 0x700⟩,
    ⟨"CLR", .cmd, 0x300, 0x700⟩, ⟨"RDS", .cmd, 0x400, 0x700⟩, ⟨"RDD", .cmd, 0x500, 0x700⟩ ] ++
  [ ⟨"CHK", .seq, 0x040, 0x1FF⟩, ⟨"LDW", .seq, 0x080, 0x1F0⟩, ⟨"EXW", .seq, 0x080, 0x1C0⟩,
    ⟨"INIT", .seq, 0x0C0, 0x1FF⟩, ⟨"RND", .seq, 0x100, 0x1C0⟩, ⟨"FIN", .seq, 0x140, 0x1FF⟩ ]

/-- The space of a word. -/
def EncodedWord.space : EncodedWord → Space
  | .cmd _ => .cmd
  | .seq _ => .seq

/-- The bits of a word as a number, bit 0 least significant (R6). -/
def EncodedWord.bits : EncodedWord → Nat
  | .cmd w => w.toNat
  | .seq w => w.toNat

/-- A word selects a row (R72). -/
def OpcodeRow.selects (row : OpcodeRow) (e : EncodedWord) : Bool :=
  decide (row.space = e.space) && (e.bits &&& row.mask == row.pattern)

/-- "Rows of one space are to be tried in the order listed and the first match wins" (R72). -/
def firstRow (e : EncodedWord) : Option OpcodeRow := opcodeTable.find? (fun row => row.selects e)

/-- The space of a word given by its number and its row's width. A width of 11 is the command space and 9 the sequencer
space (R72). In whole bytes both are 16 bits wide and a number alone may be a word of either space: then it is read as a
sequencer word if it names a micro-operation, else as a command word (log entry 9, DESIGN CHOICE). -/
def tableSpace (nbits w : Nat) : Space :=
  if nbits = 11 then .cmd
  else if nbits = 9 then .seq
  else if w < 512 then
    match decodeSequencer (BitVec.ofNat 9 w) with
    | .ok _ => .seq
    | .error _ => .cmd
  else .cmd

/-- The word that a number of the opcode table stands for, where it fits its space. -/
def tableWord (nbits w : Nat) : Option EncodedWord :=
  match tableSpace nbits w with
  | .cmd => if w < 2048 then some (.cmd (BitVec.ofNat 11 w)) else none
  | .seq => if w < 512 then some (.seq (BitVec.ofNat 9 w)) else none

/-- The instruction the decoder reads from a word numbered as spec/opcode_table.json numbers it. -/
def decodeTableWord (nbits w : Nat) : Option Instr :=
  match tableWord nbits w with
  | none => none
  | some e =>
    match decode e with
    | .ok i => some i
    | .error _ => none

end Sys2Proof
end

