-- ==== Sys2Proof/Config.lean ====
section
/-! DEFINITION. The free values: what the state holds after power is applied and before the first `RST`
(70_reset_and_hazards.md R161, 93_implementation_defined.md U2: "any value"). None has a body, so nothing can be proved
of what it holds; the argument counts the times power has been applied, and it is all that they depend on (log entry 14).
The two constant tables are in
Sys2Proof/Machine/Rom.lean. Log entry 3. -/

namespace Sys2Proof.Config

/-- The unspecified contents of `IB` at the `n`-th power-on (R161). -/
opaque powerOnIB : Nat → Vector Byte 64

/-- The unspecified value of `LEN` at the `n`-th power-on (R161); values above 65 are not excluded. -/
opaque powerOnLEN : Nat → BitVec 7

/-- The unspecified contents of `W` at the `n`-th power-on (R161). -/
opaque powerOnW : Nat → Vector Word 64

/-- The unspecified contents of `R` at the `n`-th power-on (R161). -/
opaque powerOnR : Nat → Vector Word 8

/-- The unspecified contents of `DG` at the `n`-th power-on (R161). -/
opaque powerOnDG : Nat → Vector Byte 32

/-- The unspecified value of `SEQ` (`PH` and `T`) at the `n`-th power-on, "including the unreachable sequencer words" (R161). -/
opaque powerOnSEQ : Nat → BitVec 9

end Sys2Proof.Config
end

