-- ==== Sys2Proof/Machine/State.lean ====
section
/-! DEFINITION. The state of the machine: the seven items the spec gives one engine (10_state.md R20), and the model's own
record of what the outside world does to it; the reasons a step can stop; the state after reset (R36). -/

namespace Sys2Proof.Machine

/-- "The complete state of one engine is the following seven items and nothing else" (R20). -/
structure Engine where
  /-- `IB`, the input buffer (R29). -/
  ib : Vector Byte 64
  /-- `LEN`, the length counter (R27). -/
  len : BitVec 7
  /-- `W`, the schedule store (R28). -/
  w : Vector Word 64
  /-- `R`, the working registers `a` to `h` (R21). -/
  r : Vector Word 8
  /-- `DG`, the digest buffer (R30). -/
  dg : Vector Byte 32
  /-- `PH`, the phase, `SEQ[8:6]` (R22, R23). -/
  ph : Phase
  /-- `T`, the index, `SEQ[5:0]` (R22, R24). -/
  t : BitVec 6
deriving DecidableEq, Repr

/-- One atomic event of the total order of steps (R17, R47): what the outside world does, or the engine's turn. -/
inductive Input where
  /-- The host presents a command word at the command port (R61). -/
  | cmd (w : BitVec 11)
  /-- The engine sequencer has the turn (R17). -/
  | turn
  /-- The reset input `RST` is pulsed (R160). -/
  | rst
  /-- Power is applied, after it had been off (R155, R161). -/
  | power
deriving DecidableEq, Repr

/-- The whole state of the model. Only `engine` is the hardware's; the other fields are the model's own. -/
structure State where
  /-- The engine (R20). -/
  engine : Engine
  /-- What happens next, in order; when it is empty the engine has every turn (log entry 1). -/
  inputs : List Input
  /-- The responses the command port has given, newest first; nothing reads it (R64, log entry 2). -/
  resps : List Byte
  /-- How often power has been applied: the index of the free values of the power-on state (R161, log entries 3
  and 14). -/
  powerUps : Nat
deriving DecidableEq, Repr

/-- Why the machine can stop. -/
inductive Fault where
  /-- Raised by the engine's turn when `SEQ` is one of the 378 words that select no micro-operation and no waiting phase:
  "the engine has no step there ... the engine is stuck" (30_encoding.md R68, U3). Safe: the machine stops where the
  hardware has no next state. -/
  | stuckSequencer
deriving DecidableEq, Repr

/-- Why an operation can have no meaning. -/
inductive Refusal where
  /-- The instruction has no meaning in the model yet; no arm of `exec` answers it. Safe: the machine stops. -/
  | notModelled (mnemonic : String)
  /-- Raised by `EXW t` on a term with `t < 16`, which no word decodes to: `W[t-16]` would lie outside the array, and
  "the primitives are not defined there" (00_scope.md R14, log entry 5). Safe: the machine stops. -/
  | indexOutsideRange
deriving DecidableEq, Repr

/-- The reset state of the engine (R36). -/
def Engine.reset : Engine where
  ib := Vector.replicate 64 0#8
  len := 0#7
  w := Vector.replicate 64 0#32
  r := Vector.replicate 8 0#32
  dg := Vector.replicate 32 0#8
  ph := .idle
  t := 0#6

/-- The machine right after reset (R36): no event is waiting and no response has been given. -/
def State.reset : State where
  engine := Engine.reset
  inputs := []
  resps := []
  powerUps := 0

end Sys2Proof.Machine
end

