-- ==== Sys2Proof/Machine/Ops.lean ====
section
/-! DEFINITION. The named operations: word primitives (00_scope.md R8 to R13), memory primitives (R14), the sequencer
register (R15, R22), raising the one exception (R16) and the way back from it (R147), and giving a response (R64).
`AND`, `XOR` and `NOT` of R9 are `&&&`, `^^^` and `~~~` of the word type. -/

namespace Sys2Proof.Machine

/-- `ADD32(x, y) = (x + y) mod 2^32` (R8). -/
def add32 (x y : Word) : Word := x + y

/-- `ROTR(x, n)`, rotation right (R10). -/
def rotr (x : Word) (n : Nat) : Word := x.rotateRight n

/-- `SHR(x, n)`, logical shift right (R11). -/
def shr (x : Word) (n : Nat) : Word := x >>> n

/-- `BE32(b0, b1, b2, b3) = b0 ++ b1 ++ b2 ++ b3` (R12). -/
def be32 (b0 b1 b2 b3 : Byte) : Word := (b0 ++ b1 ++ b2 ++ b3 : BitVec (8 + 8 + 8 + 8))

/-- `BYTES32(x) = (x[31:24], x[23:16], x[15:8], x[7:0])` (R13). -/
def bytes32 (x : Word) : Vector Byte 4 :=
  #v[x.extractLsb' 24 8, x.extractLsb' 16 8, x.extractLsb' 8 8, x.extractLsb' 0 8]

/-- `MemRead(S, addr, 1)` (R14). -/
def memRead1 {n : Nat} (S : Vector Byte n) (addr : Nat) (h : addr < n) : Byte := S[addr]

/-- `MemRead(S, addr, 4)`, first byte most significant (R14). -/
def memRead4 {n : Nat} (S : Vector Byte n) (addr : Nat) (h : addr + 3 < n) : Word :=
  be32 S[addr] S[addr + 1] S[addr + 2] S[addr + 3]

/-- `MemWrite(S, addr, 1, v)` (R14). -/
def memWrite1 {n : Nat} (S : Vector Byte n) (addr : Nat) (v : Byte) (h : addr < n) : Vector Byte n := S.set addr v

/-- `MemWrite(S, addr, 4, x)` stores `BYTES32(x)` at `S[addr]` to `S[addr+3]` (R14). -/
def memWrite4 {n : Nat} (S : Vector Byte n) (addr : Nat) (x : Word) (h : addr + 3 < n) : Vector Byte n :=
  (((S.set addr (bytes32 x)[0]).set (addr + 1) (bytes32 x)[1]).set (addr + 2) (bytes32 x)[2]).set (addr + 3) (bytes32 x)[3]

/-- The busy phases: "exactly the five phases `CHECK`, `SCHED`, `INIT`, `ROUND`, `FINAL`" (R23). -/
def busy : Phase → Bool
  | .check => true
  | .sched => true
  | .init => true
  | .round => true
  | .final => true
  | .idle => false
  | .done => false
  | .error => false

/-- `SEQ = PH ++ T` (R22). -/
def Engine.seq (e : Engine) : BitVec 9 := sequencerWord e.ph e.t

/-- `PH <- p; T <- t` (R15). -/
def Engine.goto (e : Engine) (p : Phase) (t : BitVec 6) : Engine := { e with ph := p, t := t }

/-- `raise InvalidInputLength()`: "exactly `PH <- ERROR; T <- 0` and nothing else" (R16, R145). It saves nothing. -/
def Engine.raiseInvalidInputLength (e : Engine) : Engine := e.goto .error 0#6

/-- The accepted `CLR`: the reset state (R120). It is the way out of `ERROR` (R147); it reads nothing of the old state. -/
def Engine.clear (_e : Engine) : Engine := Engine.reset

/-- The state with another engine: a step that gives no response. -/
def State.withEngine (s : State) (e : Engine) : State := { s with engine := e }

/-- The state after a command: the engine it leaves and the response the port gives (R64). -/
def State.respond (s : State) (e : Engine) (resp : Byte) : State := { s with engine := e, resps := resp :: s.resps }

/-- The engine after power is applied: unspecified (R161). DESIGN CHOICE (log entry 14): what it holds depends on the count of
power-ons alone, so two engines, or two runs, at the same count power up equal, which R161 does not say. -/
def Engine.powerOn (n : Nat) : Engine where
  ib := Config.powerOnIB n
  len := Config.powerOnLEN n
  w := Config.powerOnW n
  r := Config.powerOnR n
  dg := Config.powerOnDG n
  ph := sequencerPhase (Config.powerOnSEQ n)
  t := sequencerIndex (Config.powerOnSEQ n)

end Sys2Proof.Machine
end

