-- ==== Sys2Proof/Machine/Check.lean ====
section
/-! DEFINITION. The length check `CHK` (44_transform.md R123). -/

namespace Sys2Proof.Machine

/-- `CHK` (R123): a length other than 64 raises `InvalidInputLength`, whose entry is a next state (60_exceptions.md R145). -/
def execChk (s : State) : Host.Outcome State Fault Refusal :=
  .next (s.withEngine (if s.engine.len = 64#7 then s.engine.goto .sched 0#6 else s.engine.raiseInvalidInputLength))

end Sys2Proof.Machine
end

