-- ==== Sys2Proof/Machine/Flags.lean ====
section
/-! DEFINITION. The status flags and the status register: functions of `PH`, stored nowhere (10_state.md R25, R26).
No operation computes any other flag; addition sets nothing (R25, 00_scope.md R8). -/

namespace Sys2Proof.Machine

/-- `READY` (R25). -/
def flagReady (ph : Phase) : Bool := ph = .idle

/-- `BUSY` (R25). -/
def flagBusy (ph : Phase) : Bool := busy ph

/-- `DONE` (R25). -/
def flagDone (ph : Phase) : Bool := ph = .done

/-- `ERR` (R25). -/
def flagErr (ph : Phase) : Bool := ph = .error

/-- `ECODE`: `0b01`, the code of `InvalidInputLength`, when `PH = ERROR`; `0b00` otherwise (R26, R140). -/
def ecode (ph : Phase) : BitVec 2 := if ph = .error then 0b01#2 else 0b00#2

/-- `STATUS`: bit 0 `READY`, 1 `BUSY`, 2 `DONE`, 3 `ERR`, bits 5:4 `ECODE`, bits 7:6 zero (R26). -/
def statusOf (ph : Phase) : Byte :=
  (0b00#2 ++ ecode ph ++ BitVec.ofBool (flagErr ph) ++ BitVec.ofBool (flagDone ph) ++ BitVec.ofBool (flagBusy ph)
    ++ BitVec.ofBool (flagReady ph) : BitVec (2 + 2 + 1 + 1 + 1 + 1))

/-- The status register of an engine (R26). -/
def Engine.status (e : Engine) : Byte := statusOf e.ph

end Sys2Proof.Machine
end

