-- ==== Sys2Proof/Machine/Operands.lean ====
section
/-! DEFINITION. What the operations read: the working registers by name (10_state.md R21), the block word of `LDW`
(41_schedule.md R88), the four schedule words of `EXW` (R89), the constant and schedule word of `RND` (42_rounds.md R103).
The operand fields of command words are in Sys2Proof/Decode.lean. -/

namespace Sys2Proof.Machine

/-- Working register `a = R[0]` (R15, R21). -/
def regA (r : Vector Word 8) : Word := r[0]
/-- Working register `b = R[1]`. -/
def regB (r : Vector Word 8) : Word := r[1]
/-- Working register `c = R[2]`. -/
def regC (r : Vector Word 8) : Word := r[2]
/-- Working register `d = R[3]`. -/
def regD (r : Vector Word 8) : Word := r[3]
/-- Working register `e = R[4]`. -/
def regE (r : Vector Word 8) : Word := r[4]
/-- Working register `f = R[5]`. -/
def regF (r : Vector Word 8) : Word := r[5]
/-- Working register `g = R[6]`. -/
def regG (r : Vector Word 8) : Word := r[6]
/-- Working register `h = R[7]`. -/
def regH (r : Vector Word 8) : Word := r[7]

/-- The block word that `LDW t` loads: `MemRead(IB, 4*t, 4)`; `4t + 3` is at most 63 (R88). -/
def blockWord (ib : Vector Byte 64) (t : BitVec 4) : Word := memRead4 ib (4 * t.toNat) (by omega)

/-- `W[t]`, the schedule word that `RND t` reads (R103). -/
def scheduleWord (w : Vector Word 64) (t : BitVec 6) : Word := w[t.toNat]

/-- `K[t]`, the round constant that `RND t` reads (R82, R103). -/
def roundConstant (t : BitVec 6) : Word := romK[t.toNat]

end Sys2Proof.Machine
end

