-- ==== Sys2Proof/Machine/Command.lean ====
section
/-! DEFINITION. The six host commands (44_transform.md R116 to R122). A command the phase does not accept changes no state
and answers 0x00 (R116). -/

namespace Sys2Proof.Machine

/-- Which phases accept a `PUSH` or a `START`: `IDLE` alone (R116). -/
def acceptsInput (ph : Phase) : Bool := ph = .idle

/-- Which phases accept a `CLR`: `IDLE`, `DONE`, `ERROR`, the phases that are not busy (R116). -/
def acceptsClear (ph : Phase) : Bool := !busy ph

/-- The effect of an accepted `PUSH b` (R118): the byte goes to `IB[LEN]`, a 65th byte only moves `LEN` to 65. -/
def Engine.pushByte (e : Engine) (b : Byte) : Engine :=
  if h : e.len.toNat < 64 then { e with ib := memWrite1 e.ib e.len.toNat b h, len := e.len + 1#7 }
  else if e.len = 64#7 then { e with len := 65#7 }
  else e

/-- `NOP` (R117). -/
def execNop (s : State) : Host.Outcome State Fault Refusal := .next (s.respond s.engine 0x00#8)

/-- `PUSH b` (R118). -/
def execPush (b : Byte) (s : State) : Host.Outcome State Fault Refusal :=
  .next (s.respond (if acceptsInput s.engine.ph then s.engine.pushByte b else s.engine) 0x00#8)

/-- `START` (R119). In `IDLE` with `T` not 0 it acts too: DESIGN CHOICE against R68 (log entry 11). -/
def execStart (s : State) : Host.Outcome State Fault Refusal :=
  .next (s.respond (if acceptsInput s.engine.ph then s.engine.goto .check 0#6 else s.engine) 0x00#8)

/-- `CLR` (R120). -/
def execClr (s : State) : Host.Outcome State Fault Refusal :=
  .next (s.respond (if acceptsClear s.engine.ph then s.engine.clear else s.engine) 0x00#8)

/-- `RDS` (R121). -/
def execRds (s : State) : Host.Outcome State Fault Refusal := .next (s.respond s.engine s.engine.status)

/-- `RDD k` (R122). -/
def execRdd (k : BitVec 5) (s : State) : Host.Outcome State Fault Refusal :=
  .next (s.respond s.engine (memRead1 s.engine.dg k.toNat k.isLt))

end Sys2Proof.Machine
end

