-- ==== Sys2Proof/Machine/Finalize.lean ====
section
/-! DEFINITION. The digest finalizer: `FIN` (43_finalizer.md). -/

namespace Sys2Proof.Machine

/-- `final[k] = ADD32(H[k], R[k])` (R111). -/
def finalWord (r : Vector Word 8) (k : Nat) (h : k < 8) : Word := add32 romH[k] r[k]

/-- The loop of `FIN`: for `k` below `n`, `MemWrite(DG, 4*k, 4, final[k])` (R112). -/
def writeFinals (dg : Vector Byte 32) (r : Vector Word 8) : (n : Nat) → n ≤ 8 → Vector Byte 32
  | 0, _ => dg
  | n + 1, h => memWrite4 (writeFinals dg r n (by omega)) (4 * n) (finalWord r n (by omega)) (by omega)

/-- The whole loop of `FIN` (R112). Irreducible, so that no proof unfolds the 32 writes by accident:
Sys2Proof/Laws/Ops.lean says what every byte is afterwards. -/
@[irreducible] def writeDigest (dg : Vector Byte 32) (r : Vector Word 8) : Vector Byte 32 := writeFinals dg r 8 (Nat.le_refl 8)

/-- The engine after `FIN` (R112): all 32 bytes of `DG`, `PH` and `T`, in one step. -/
def Engine.finalize (e : Engine) : Engine := { e with dg := writeDigest e.dg e.r, ph := .done, t := 0#6 }

/-- `FIN` (R112). -/
def execFin (s : State) : Host.Outcome State Fault Refusal := .next (s.withEngine s.engine.finalize)

end Sys2Proof.Machine
end

