-- ==== Sys2Proof/Machine/Round.lean ====
section
/-! DEFINITION. The compression round engine: `INIT` and `RND` (42_rounds.md). -/

namespace Sys2Proof.Machine

/-- `BSIG1(x) = XOR(ROTR(x, 6), ROTR(x, 11), ROTR(x, 25))` (R97). -/
def bsig1 (x : Word) : Word := rotr x 6 ^^^ rotr x 11 ^^^ rotr x 25

/-- `CH(x, y, z) = XOR(AND(x, y), AND(NOT(x), z))` (R98). -/
def ch (x y z : Word) : Word := (x &&& y) ^^^ (~~~x &&& z)

/-- `BSIG0(x) = XOR(ROTR(x, 2), ROTR(x, 13), ROTR(x, 22))` (R99). -/
def bsig0 (x : Word) : Word := rotr x 2 ^^^ rotr x 13 ^^^ rotr x 22

/-- `MAJ(x, y, z) = XOR(AND(x, y), AND(x, z), AND(y, z))` (R100). -/
def maj (x y z : Word) : Word := (x &&& y) ^^^ (x &&& z) ^^^ (y &&& z)

/-- `temp1 = ADD32(h, BSIG1(e), CH(e, f, g), K[t], W[t])` (R101). -/
def temp1 (r : Vector Word 8) (k w : Word) : Word :=
  add32 (add32 (add32 (add32 (regH r) (bsig1 (regE r))) (ch (regE r) (regF r) (regG r))) k) w

/-- `temp2 = ADD32(BSIG0(a), MAJ(a, b, c))` (R102). -/
def temp2 (r : Vector Word 8) : Word := add32 (bsig0 (regA r)) (maj (regA r) (regB r) (regC r))

/-- The register update of one round, every right-hand side read before the step (R103). -/
def roundStep (r : Vector Word 8) (k w : Word) : Vector Word 8 :=
  #v[add32 (temp1 r k w) (temp2 r), regA r, regB r, regC r, add32 (regD r) (temp1 r k w), regE r, regF r, regG r]

/-- `INIT` (R96). -/
def execInit (s : State) : Host.Outcome State Fault Refusal :=
  .next (s.withEngine { s.engine with r := romH, ph := .round, t := 0#6 })

/-- The engine after `RND t` (R103): after index 63 the phase is `FINAL`. -/
def Engine.round (e : Engine) (t : BitVec 6) : Engine :=
  let e' : Engine := { e with r := roundStep e.r (roundConstant t) (scheduleWord e.w t) }
  if t.toNat < 63 then { e' with t := t + 1#6 } else e'.goto .final 0#6

/-- `RND t` (R103). -/
def execRnd (t : BitVec 6) (s : State) : Host.Outcome State Fault Refusal := .next (s.withEngine (s.engine.round t))

end Sys2Proof.Machine
end

