-- ==== Sys2Proof/Machine/Schedule.lean ====
section
/-! DEFINITION. The message schedule expander: `LDW` and `EXW` (41_schedule.md). -/

namespace Sys2Proof.Machine

/-- `SSIG0(x) = XOR(ROTR(x, 7), ROTR(x, 18), SHR(x, 3))` (R85). -/
def ssig0 (x : Word) : Word := rotr x 7 ^^^ rotr x 18 ^^^ shr x 3

/-- `SSIG1(x) = XOR(ROTR(x, 17), ROTR(x, 19), SHR(x, 10))` (R86). -/
def ssig1 (x : Word) : Word := rotr x 17 ^^^ rotr x 19 ^^^ shr x 10

/-- `ADD32(W[t-16], SSIG0(W[t-15]), W[t-7], SSIG1(W[t-2]))` (R89). -/
def expandWord (w : Vector Word 64) (t : Nat) (lo : 16 ≤ t) (hi : t < 64) : Word :=
  add32 (add32 (add32 (w[t - 16]'(by omega)) (ssig0 (w[t - 15]'(by omega)))) (w[t - 7]'(by omega))) (ssig1 (w[t - 2]'(by omega)))

/-- `LDW t` (R88): `W[t] <- MemRead(IB, 4*t, 4)`; `T <- t + 1`; `PH` stays. -/
def execLdw (t : BitVec 4) (s : State) : Host.Outcome State Fault Refusal :=
  .next (s.withEngine { s.engine with
    w := s.engine.w.set t.toNat (blockWord s.engine.ib t) (by omega)
    t := t.setWidth 6 + 1#6 })

/-- The engine after `EXW t` (R89): after index 63 the phase is `INIT`. -/
def Engine.expand (e : Engine) (t : BitVec 6) (lo : 16 ≤ t.toNat) : Engine :=
  let e' : Engine := { e with w := e.w.set t.toNat (expandWord e.w t.toNat lo t.isLt) }
  if t.toNat < 63 then { e' with t := t + 1#6 } else e'.goto .init 0#6

/-- `EXW t` (R89). A term with `t < 16` is no operation of the table and is refused by name (R14, log entry 5). -/
def execExw (t : BitVec 6) (s : State) : Host.Outcome State Fault Refusal :=
  if lo : 16 ≤ t.toNat then .next (s.withEngine (s.engine.expand t lo)) else .refused .indexOutsideRange

end Sys2Proof.Machine
end

