-- ==== Sys2Proof/Machine/Dispatch.lean ====
section
/-! DEFINITION. One arm per operation (30_encoding.md R62, R66). -/

namespace Sys2Proof.Machine

/-- The meaning of each operation. -/
def exec (i : Instr) (s : State) : Host.Outcome State Fault Refusal :=
  match i with
  | .nop => Sys2Proof.Machine.execNop s
  | .push b => Sys2Proof.Machine.execPush b s
  | .start => Sys2Proof.Machine.execStart s
  | .clr => Sys2Proof.Machine.execClr s
  | .rds => Sys2Proof.Machine.execRds s
  | .rdd k => Sys2Proof.Machine.execRdd k s
  | .chk => Sys2Proof.Machine.execChk s
  | .ldw t => Sys2Proof.Machine.execLdw t s
  | .exw t => Sys2Proof.Machine.execExw t s
  | .init => Sys2Proof.Machine.execInit s
  | .rnd t => Sys2Proof.Machine.execRnd t s
  | .fin => Sys2Proof.Machine.execFin s

end Sys2Proof.Machine
end

