-- ==== Sys2Proof/Machine/Sequencer.lean ====
section
/-! DEFINITION. The events of the total order (20_memory.md R47): the engine's turn (44_transform.md R124, R125), a command
at the port, the `RST` pulse (70_reset_and_hazards.md R160), power (R161); and placing a word where the next step takes its
operation from. -/

namespace Sys2Proof.Machine

/-- The engine's turn: the micro-operation that `SEQ` selects (R124). In `IDLE`, `DONE` and `ERROR` "the engine has no step"
and nothing changes (R125, R155); at an unreachable word it is stuck (R68). -/
def engineTurn (s : State) : Host.Outcome State Fault Refusal :=
  match decodeSequencer s.engine.seq with
  | .ok i => exec i s
  | .error .waiting => .next s
  | .error .unreachable => .fault .stuckSequencer

/-- Power is applied: the engine's state is unspecified (R161). -/
def applyPower (s : State) : State := { s with engine := Engine.powerOn s.powerUps, powerUps := s.powerUps + 1 }

/-- One event. DESIGN CHOICE (log entry 15): between power and the first `RST`, where R161 says that no rule but R160 applies and
R162 and U3 apply R116 all the same, every event acts by its rule on the unspecified contents. -/
def takeInput (x : Input) (s : State) : Host.Outcome State Fault Refusal :=
  match x with
  | .cmd w => exec (decodeCommand w) s
  | .turn => engineTurn s
  | .rst => .next (s.withEngine Engine.reset)
  | .power => .next (applyPower s)

/-- The engine with a sequencer word in `SEQ` (R22). -/
def Engine.setSeq (e : Engine) (w : BitVec 9) : Engine := e.goto (sequencerPhase w) (sequencerIndex w)

/-- Put a word where the very next step takes its operation from: a command word first at the port, a sequencer word into
`SEQ` with the engine's turn next (log entry 8). -/
def placeWord (x : EncodedWord) (s : State) : State :=
  match x with
  | .cmd w => { s with inputs := .cmd w :: s.inputs }
  | .seq w => { s with engine := s.engine.setSeq w, inputs := .turn :: s.inputs }

/-- `placeWord` for a word given by the opcode table's numbering; a number that fits no space places nothing. -/
def placeTableWord (nbits w : Nat) (s : State) : State :=
  match tableWord nbits w with
  | none => s
  | some x => placeWord x s

end Sys2Proof.Machine
end

