-- ==== Sys2Proof/Machine/Step.lean ====
section
/-! DEFINITION. One step of the machine: the next event of the total order (20_memory.md R47). -/

namespace Sys2Proof.Machine

/-- One atomic step. When no event of the outside world is left, the engine has the turn (log entry 1). -/
def step (s : State) : Host.Outcome State Fault Refusal :=
  match s.inputs with
  | [] => engineTurn s
  | x :: rest => takeInput x { s with inputs := rest }

/-- The state with a word of the opcode table placed where the very next step takes its operation from (log entry 8). -/
def State.withFetchWord (s : State) (nbits w : Nat) : State := placeTableWord nbits w s

end Sys2Proof.Machine
end

