-- ==== Sys2Proof/Machine/Program.lean ====
section
/-! DEFINITION. Host programs: the pseudo-instructions (30_encoding.md R71) and the assembler's lines (R70). The machine does
not depend on this file: a program reaches the engine as the command words it is made of. -/

namespace Sys2Proof.Machine

/-- The canonical word of a command, as an event at the command port (R62). -/
def issue (i : Instr) : List Input :=
  match encode i with
  | .cmd w => [.cmd w]
  | .seq _ => []

/-- `LOAD b0 ... b(n-1)`: `PUSH b0` to `PUSH b(n-1)`, in that order (R71). -/
def pseudoLoad (bs : List Byte) : List Input := bs.flatMap (fun b => issue (.push b))

/-- `FILL b, n`: `PUSH b` repeated `n` times (R71). -/
def pseudoFill (b : Byte) (n : Nat) : List Input := pseudoLoad (List.replicate n b)

/-- `WAIT`: `RDS` repeated; how often depends on the interleaving, so the number of polls is an argument, at least 1 (R71).
Between two polls the engine may take turns: `turns` says how many before each. -/
def pseudoWait : List Nat → List Input
  | [] => issue .rds
  | n :: turns => List.replicate n .turn ++ issue .rds ++ pseudoWait turns

/-- `GETD`: `RDD 0` to `RDD 31`, in that order (R71). -/
def pseudoGetd : List Input := (List.range 32).flatMap (fun k => issue (.rdd (BitVec.ofNat 5 k)))

/-- `XFORM b0 ... b(n-1)`: `CLR`; `LOAD`; `START`; `WAIT`; `GETD` (R71). -/
def pseudoXform (bs : List Byte) (turns : List Nat) : List Input :=
  issue .clr ++ pseudoLoad bs ++ issue .start ++ pseudoWait turns ++ pseudoGetd

/-- Why the assembler refuses a line (R70). -/
inductive AsmError where
  /-- No mnemonic of R62 and not `RST`; in particular every way of writing a reserved opcode. -/
  | unknownMnemonic
  /-- An operand missing, one too many, or not a numeral. -/
  | badOperand
  /-- An operand outside its range. -/
  | operandOutOfRange
deriving DecidableEq, Repr

/-- The text before a comment after `;` (R70). -/
def stripComment : List Char → List Char
  | [] => []
  | c :: cs => if c = ';' then [] else c :: stripComment cs

/-- The space-separated parts of a line, `cur` being the part read so far, in reverse. -/
def splitSpaces (cur : List Char) : List Char → List (List Char)
  | [] => if cur = [] then [] else [cur.reverse]
  | c :: cs => if c = ' ' then (if cur = [] then splitSpaces [] cs else cur.reverse :: splitSpaces [] cs) else splitSpaces (c :: cur) cs

/-- The value of one digit in a base up to 16, either case of the letters. -/
def digitValue (base : Nat) (c : Char) : Option Nat :=
  let n := c.toNat
  let v := if 48 ≤ n ∧ n ≤ 57 then n - 48 else if 65 ≤ n ∧ n ≤ 70 then n - 55 else if 97 ≤ n ∧ n ≤ 102 then n - 87 else 16
  if v < base then some v else none

/-- The value of a non-empty string of digits, `acc` being the value read so far. -/
def digitsValue (base acc : Nat) : List Char → Option Nat
  | [] => some acc
  | c :: cs =>
    match digitValue base c with
    | none => none
    | some v => digitsValue base (acc * base + v) cs

/-- A numeral: decimal, "or with `0x` in hexadecimal" (R70). -/
def numeral : List Char → Option Nat
  | [] => none
  | ['0', 'x'] => none
  | '0' :: 'x' :: cs => digitsValue 16 0 cs
  | c :: cs => digitsValue 10 0 (c :: cs)

/-- The command or the `RST` pulse of a line's parts (R70). -/
def assembleParts : List (List Char) → Except AsmError (List Input)
  | [['N', 'O', 'P']] => .ok (issue .nop)
  | [['S', 'T', 'A', 'R', 'T']] => .ok (issue .start)
  | [['C', 'L', 'R']] => .ok (issue .clr)
  | [['R', 'D', 'S']] => .ok (issue .rds)
  | [['R', 'S', 'T']] => .ok [.rst]
  | [['P', 'U', 'S', 'H'], x] =>
    match numeral x with
    | none => .error .badOperand
    | some n => if n ≤ 255 then .ok (issue (.push (BitVec.ofNat 8 n))) else .error .operandOutOfRange
  | [['R', 'D', 'D'], x] =>
    match numeral x with
    | none => .error .badOperand
    | some n => if n ≤ 31 then .ok (issue (.rdd (BitVec.ofNat 5 n))) else .error .operandOutOfRange
  | (['P', 'U', 'S', 'H'] :: _) => .error .badOperand
  | (['R', 'D', 'D'] :: _) => .error .badOperand
  | _ => .error .unknownMnemonic

/-- One line of a host program (R70). -/
def assembleLine (line : List Char) : Except AsmError (List Input) := assembleParts (splitSpaces [] (stripComment line))

/-- A host program: a list of lines, refused if one of them is (R70). -/
def assemble : List (List Char) → Except AsmError (List Input)
  | [] => .ok []
  | l :: ls =>
    match assembleLine l, assemble ls with
    | .ok x, .ok xs => .ok (x ++ xs)
    | .error e, _ => .error e
    | .ok _, .error e => .error e

end Sys2Proof.Machine
end

