-- ==== Sys2Proof/Machine/Transform.lean ====
section
/-! DEFINITION. The functions of the block that the engine computes: `SCHEDULE` (41_schedule.md R90), `ROUNDS`
(42_rounds.md R105), `DIGEST` (43_finalizer.md R113), `COMPRESS` and `TRANSFORM` (44_transform.md R130). They speak of
bytes and words alone and know nothing of phases, steps or states. -/

namespace Sys2Proof.Machine

/-- The schedule word with index `t`, from the block and the words before it (R90). -/
def scheduleNext (B : Vector Byte 64) (w : Vector Word 64) (t : Nat) (hi : t < 64) : Word :=
  if lo : t < 16 then be32 (B[4 * t]'(by omega)) (B[4 * t + 1]'(by omega)) (B[4 * t + 2]'(by omega)) (B[4 * t + 3]'(by omega))
  else expandWord w t (by omega) hi

/-- One more word of the schedule. -/
def scheduleExtend (B : Vector Byte 64) (t : Nat) (w : Vector Word 64) : Vector Word 64 :=
  if hi : t < 64 then w.set t (scheduleNext B w t hi) else w

/-- The first `n` words of the schedule of a block, zeros after them. -/
def scheduleUpTo (B : Vector Byte 64) : Nat → Vector Word 64
  | 0 => Vector.replicate 64 0#32
  | n + 1 => scheduleExtend B n (scheduleUpTo B n)

/-- `SCHEDULE(B)` (R90). -/
def schedule (B : Vector Byte 64) : Vector Word 64 := scheduleUpTo B 64

/-- One more round, with the constant and the schedule word of its index. -/
def roundsExtend (w : Vector Word 64) (t : Nat) (r : Vector Word 8) : Vector Word 8 :=
  if hi : t < 64 then roundStep r romK[t] w[t] else r

/-- The working registers after the first `n` rounds, starting from `H[0..7]` (R105). -/
def roundsUpTo (w : Vector Word 64) : Nat → Vector Word 8
  | 0 => romH
  | n + 1 => roundsExtend w n (roundsUpTo w n)

/-- `ROUNDS(w)` (R105). -/
def rounds (w : Vector Word 64) : Vector Word 8 := roundsUpTo w 64

/-- `BYTES32(ADD32(H[k], r[k]))`, one group of four digest bytes (R113). -/
def digestGroup (r : Vector Word 8) (k : Nat) (h : k < 8) : Vector Byte 4 := bytes32 (add32 romH[k] r[k])

/-- `DIGEST(r)`: the eight groups one after another, those of `final[0]` first (R113). -/
def digest (r : Vector Word 8) : Vector Byte 32 :=
  let left : Vector Byte 16 := ((digestGroup r 0 (by omega)).append (digestGroup r 1 (by omega))).append
    ((digestGroup r 2 (by omega)).append (digestGroup r 3 (by omega)))
  let right : Vector Byte 16 := ((digestGroup r 4 (by omega)).append (digestGroup r 5 (by omega))).append
    ((digestGroup r 6 (by omega)).append (digestGroup r 7 (by omega)))
  left.append right

/-- `COMPRESS(B) = DIGEST(ROUNDS(SCHEDULE(B)))` (R130). -/
def compress (B : Vector Byte 64) : Vector Byte 32 := digest (rounds (schedule B))

/-- The one error kind (60_exceptions.md R140). -/
inductive TransformError where
  | invalidInputLength
deriving DecidableEq, Repr

/-- A transform's tagged result: the digest, or the reason of the failure (R115, R130). -/
inductive TransformResult where
  | ok (dg : Vector Byte 32)
  | err (e : TransformError)
deriving DecidableEq, Repr

/-- `TRANSFORM(B)`, for a byte sequence of any length (R130). -/
def transform (B : List Byte) : TransformResult :=
  if h : B.length = 64 then .ok (compress ⟨B.toArray, h⟩) else .err .invalidInputLength

/-- The register update of a round done as eight assignments one after another, in the source's order
`h=g; g=f; f=e; e=d+temp1; d=c; c=b; b=a; a=temp1+temp2`, `temp1` and `temp2` computed before any of them (R104). -/
def roundStepInOrder (r : Vector Word 8) (k w : Word) : Vector Word 8 :=
  let t1 := temp1 r k w
  let t2 := temp2 r
  let r := r.set 7 (regG r)
  let r := r.set 6 (regF r)
  let r := r.set 5 (regE r)
  let r := r.set 4 (add32 (regD r) t1)
  let r := r.set 3 (regC r)
  let r := r.set 2 (regB r)
  let r := r.set 1 (regA r)
  r.set 0 (add32 t1 t2)

/-- The working registers before a round, from those after it (R105: "the old values can be recovered from the new ones"). -/
def roundUndo (r : Vector Word 8) (k w : Word) : Vector Word 8 :=
  let a := r[1]; let b := r[2]; let c := r[3]; let e := r[5]; let f := r[6]; let g := r[7]
  let t2 := bsig0 a + maj a b c
  let t1 := r[0] - t2
  #v[a, b, c, r[4] - t1, e, f, g, t1 - bsig1 e - ch e f g - k - w]

end Sys2Proof.Machine
end

