-- ==== Sys2Proof/Safety.lean ====
section
/-! DEFINITION. What claims about runs speak of: the end of a run (70_reset_and_hazards.md R173), the invariants of the
reachable states (10_state.md R34) and their inductive strengthening, the state a transform stops in (44_transform.md R131),
and which events leave a transform undisturbed (R133). -/

namespace Sys2Proof.Machine

/-- `n` steps of the machine, stopping at the first fault or refusal. -/
def runSteps : Nat → State → Host.Outcome State Fault Refusal
  | 0, s => .next s
  | n + 1, s =>
    match step s with
    | .next t => runSteps n t
    | .fault r => .fault r
    | .refused r => .refused r

/-- "A transform is over when `PH` is `DONE` or `ERROR`" (R173). -/
def Engine.Over (e : Engine) : Prop := e.ph = .done ∨ e.ph = .error

/-- The tagged result a stopped engine holds: the tag is `STATUS`, the digest `DG` (R115, R173). -/
def Engine.result (e : Engine) : Option TransformResult :=
  match e.ph with
  | .done => some (.ok e.dg)
  | .error => some (.err .invalidInputLength)
  | .idle => none
  | .check => none
  | .sched => none
  | .init => none
  | .round => none
  | .final => none

/-- The invariants I1 to I9 of R34. -/
structure Engine.ReachableShape (e : Engine) : Prop where
  i1 : e.ph ≠ .sched → e.ph ≠ .round → e.t = 0#6
  i2 : e.len.toNat ≤ 65
  i3 : e.ph = .sched ∨ e.ph = .init ∨ e.ph = .round ∨ e.ph = .final ∨ e.ph = .done → e.len = 64#7
  i4 : e.ph ≠ .done → ∀ k, (h : k < 32) → e.dg[k] = 0#8
  i5 : ∀ i, (h : i < 64) → e.len.toNat ≤ i → e.ib[i] = 0#8
  i6 : e.ph = .idle ∨ e.ph = .check ∨ e.ph = .error → (∀ t, (h : t < 64) → e.w[t] = 0#32) ∧ ∀ k, (h : k < 8) → e.r[k] = 0#32
  i7 : e.ph = .error → e.len ≠ 64#7
  i8 : e.ph = .sched → ∀ t, (h : t < 64) → e.w[t] = if t < e.t.toNat then (schedule e.ib)[t] else 0#32
  i9 : e.ph = .done → e.dg = compress e.ib

/-- I1 to I9 and what they need to be kept by every step: the whole schedule is in `W` from `INIT` on, and `R` holds the
registers after the first `T` rounds in `ROUND` and after all 64 from `FINAL` on (DEDUCED from R90 and R105, log entry 10). -/
structure Engine.Sound (e : Engine) : Prop extends e.ReachableShape where
  full : e.ph = .init ∨ e.ph = .round ∨ e.ph = .final ∨ e.ph = .done → e.w = schedule e.ib
  mixing : e.ph = .round → e.r = roundsUpTo (schedule e.ib) e.t.toNat
  mixed : e.ph = .final ∨ e.ph = .done → e.r = rounds (schedule e.ib)

/-- The block held by a byte sequence of any length: its first 64 bytes, zeros after them. -/
def blockOf (B : List Byte) : Vector Byte 64 := Vector.ofFn fun i : Fin 64 => B.getD i.val 0#8

/-- The state in which the engine stops after the bytes `B` were pushed and `START` was issued (R131): on 64 bytes `DONE`
with the whole computation in it, on any other length `ERROR` with nothing computed. -/
def Engine.stopped (B : List Byte) : Engine :=
  if B.length = 64 then
    { ib := blockOf B, len := 64#7, w := schedule (blockOf B), r := rounds (schedule (blockOf B)),
      dg := compress (blockOf B), ph := .done, t := 0#6 }
  else
    { Engine.reset with ib := blockOf B, len := BitVec.ofNat 7 (min B.length 65), ph := .error }

/-- How many steps the engine takes from an accepted `START` on a byte sequence (R126). -/
def engineSteps (B : List Byte) : Nat := if B.length = 64 then 131 else 1

/-- The bytes that a list of events pushes, where every event is one that may come before the `START` of a transform
without disturbing it: `PUSH`, `NOP`, `RDS`, `RDD`, a reserved command, a turn of the engine (R133). No command word decodes
to a micro-operation. -/
def pushedBytes : List Input → Option (List Byte)
  | [] => some []
  | .turn :: xs => pushedBytes xs
  | .rst :: _ => none
  | .power :: _ => none
  | .cmd w :: xs =>
    match decodeCommand w with
    | .push b => (pushedBytes xs).map (b :: ·)
    | .start => none
    | .clr => none
    | .nop => pushedBytes xs
    | .rds => pushedBytes xs
    | .rdd _ => pushedBytes xs
    | .chk => none
    | .ldw _ => none
    | .exw _ => none
    | .init => none
    | .rnd _ => none
    | .fin => none

/-- The events that may follow an accepted `START`, `n` engine steps before the end, without disturbing the transform: any
commands, but no `CLR` once the engine has stopped, and no `RST` and no loss of power at any time (R133). -/
def undisturbed (n : Nat) : List Input → Bool
  | [] => true
  | .turn :: xs => undisturbed (n - 1) xs
  | .rst :: _ => false
  | .power :: _ => false
  | .cmd w :: xs => (decodeCommand w != .clr || decide (0 < n)) && undisturbed n xs

end Sys2Proof.Machine
end

