-- ==== Sys2Proof/Certificates/Slice0/Obligations.lean ====
section
/-! DEFINITION. The statements. Each docstring names the rule of spec/ that the statement formalises; where a clause rests on
a passage the spec marks as its own inference ("[derived: ...]") or on a choice of the model, the docstring says so. -/

open Sys2Proof Sys2Proof.Machine

/-! ## Reset, power, the end of a run -/

/-- R36: the value of every piece of state after reset, and that `RST` and an accepted `CLR` reach that state. -/
def Obligations.ResetLeavesZeroAndIdle : Prop :=
  ((∀ i, (h : i < 64) → State.reset.engine.ib[i] = 0x00#8) ∧ State.reset.engine.len = 0#7 ∧
    (∀ t, (h : t < 64) → State.reset.engine.w[t] = 0x00000000#32) ∧
    (∀ k, (h : k < 8) → State.reset.engine.r[k] = 0x00000000#32) ∧
    (∀ k, (h : k < 32) → State.reset.engine.dg[k] = 0x00#8) ∧
    State.reset.engine.ph = .idle ∧ State.reset.engine.t = 0#6 ∧
    State.reset.engine.seq = 0b000000000#9 ∧ State.reset.engine.status = 0x01#8) ∧
  (∀ s rest, s.inputs = .rst :: rest → ∃ t, step s = .next t ∧ t.engine = State.reset.engine) ∧
  (∀ s : State, s.engine.ph = .idle ∨ s.engine.ph = .done ∨ s.engine.ph = .error →
    ∃ t, exec .clr s = .next t ∧ t.engine = State.reset.engine)

/-- R160: the `RST` pulse, at any time and in any phase (every word of `SEQ`, the unreachable ones included). Nothing of the
engine remains; the events that wait and the responses given are the outside world's and stay. -/
def Obligations.RstPulseResetsAnyEngine : Prop :=
  ∀ s rest, s.inputs = .rst :: rest → step s = .next { s with engine := State.reset.engine, inputs := rest }

/-- R161, R162 (70_reset_and_hazards.md sections 1 and 2): whatever power leaves in the engine, one `RST` pulse makes it the
reset state. The power event and its free values are the model's form of "unspecified" (log entry 3). -/
def Obligations.RstAfterPowerUpGivesTheResetState : Prop :=
  ∀ s rest, s.inputs = .power :: .rst :: rest →
    ∃ t, runSteps 2 s = .next t ∧ t.engine = State.reset.engine ∧ t.inputs = rest ∧ t.resps = s.resps

/-! ## Word and memory primitives -/

/-- 00_scope.md section 4 (R8, its second sentence the spec's own inference): `ADD32` wraps, and the grouping of a sum does
not matter. -/
def Obligations.AddIsModularAndAssociative : Prop :=
  (∀ x y : Word, (add32 x y).toNat = (x.toNat + y.toNat) % 2 ^ 32) ∧
  (∀ x y z : Word, add32 (add32 x y) z = add32 x (add32 y z)) ∧ (∀ x y : Word, add32 x y = add32 y x)

/-- R10, R11: the bits of `ROTR` and `SHR` for every amount of 1 to 31. -/
def Obligations.RotateAndShiftMoveBits : Prop :=
  ∀ (x : Word) (n i : Nat), 1 ≤ n → n ≤ 31 → i ≤ 31 →
    (rotr x n).getLsbD i = x.getLsbD ((i + n) % 32) ∧
    (shr x n).getLsbD i = if i + n ≤ 31 then x.getLsbD (i + n) else false

/-- R12, and 00_scope.md section 4 (R13): `BE32` and `BYTES32`, most significant byte first. -/
def Obligations.BigEndianPacking : Prop :=
  (∀ b0 b1 b2 b3 : Byte,
    (be32 b0 b1 b2 b3).toNat = b0.toNat * 2 ^ 24 + b1.toNat * 2 ^ 16 + b2.toNat * 2 ^ 8 + b3.toNat) ∧
  (∀ (x : Word) (j : Nat) (h : j < 4), (bytes32 x)[j].toNat = x.toNat / 2 ^ (8 * (3 - j)) % 256)

/-- 00_scope.md section 4 (R13's own inference): `BE32` and `BYTES32` are inverse to each other. -/
def Obligations.BigEndianRoundTrip : Prop :=
  (∀ x : Word, be32 (bytes32 x)[0] (bytes32 x)[1] (bytes32 x)[2] (bytes32 x)[3] = x) ∧
  (∀ b0 b1 b2 b3 : Byte, bytes32 (be32 b0 b1 b2 b3) = #v[b0, b1, b2, b3])

/-- 00_scope.md section 4 (R14): `MemRead` and `MemWrite` of one and of four bytes, for an array of any size: what is read, what is written, and that
no other byte changes. -/
def Obligations.MemoryPrimitives : Prop :=
  ∀ (n : Nat) (S : Vector Byte n) (addr : Nat),
    (∀ (h : addr < n) (v : Byte), memRead1 S addr h = S[addr] ∧ (memWrite1 S addr v h)[addr] = v ∧
      ∀ i, (hi : i < n) → i ≠ addr → (memWrite1 S addr v h)[i] = S[i]) ∧
    (∀ (h : addr + 3 < n) (x : Word), memRead4 S addr h = be32 S[addr] S[addr + 1] S[addr + 2] S[addr + 3] ∧
      (∀ j, (hj : j < 4) → (memWrite4 S addr x h)[addr + j].toNat = x.toNat / 2 ^ (8 * (3 - j)) % 256) ∧
      ∀ i, (hi : i < n) → i < addr ∨ addr + 4 ≤ i → (memWrite4 S addr x h)[i] = S[i])

/-- R85, R86, R97, R99: each bit of the four mixing functions. A shift loses bits, a rotation loses none. -/
def Obligations.MixingFunctionBits : Prop :=
  ∀ (x : Word) (i : Nat), i ≤ 31 →
    ((ssig0 x).getLsbD i =
      ((x.getLsbD ((i + 7) % 32) ^^ x.getLsbD ((i + 18) % 32)) ^^ if i + 3 ≤ 31 then x.getLsbD (i + 3) else false)) ∧
    ((ssig1 x).getLsbD i =
      ((x.getLsbD ((i + 17) % 32) ^^ x.getLsbD ((i + 19) % 32)) ^^ if i + 10 ≤ 31 then x.getLsbD (i + 10) else false)) ∧
    ((bsig1 x).getLsbD i = ((x.getLsbD ((i + 6) % 32) ^^ x.getLsbD ((i + 11) % 32)) ^^ x.getLsbD ((i + 25) % 32))) ∧
    ((bsig0 x).getLsbD i = ((x.getLsbD ((i + 2) % 32) ^^ x.getLsbD ((i + 13) % 32)) ^^ x.getLsbD ((i + 22) % 32)))

/-- R98, R100: `CH` chooses and `MAJ` is the majority, bit by bit, and the formulas of the rules. -/
def Obligations.ChooseAndMajorityBits : Prop :=
  ∀ (x y z : Word),
    ch x y z = (x &&& y) ^^^ (~~~x &&& z) ∧ maj x y z = ((x &&& y) ^^^ (x &&& z)) ^^^ (y &&& z) ∧
    ∀ i, i ≤ 31 →
      (ch x y z).getLsbD i = (if x.getLsbD i then y.getLsbD i else z.getLsbD i) ∧
      ((maj x y z).getLsbD i = true ↔ 2 ≤ (x.getLsbD i).toNat + (y.getLsbD i).toNat + (z.getLsbD i).toNat)

/-- 40_constants.md section 3 (from general knowledge, by the spec's own mark): `H[k]` and `K[t]` are the first 32 bits of the
fractional parts of the square and cube roots of the first primes: `floor(sqrt(p * 2^64)) mod 2^32` and
`floor(cbrt(p * 2^96)) mod 2^32`, the roots given by their defining inequalities. -/
def Obligations.ConstantsComeFromThePrimes : Prop :=
  ∃ p : Vector Nat 64, (∀ i, (h : i < 64) → (p[i]).Prime) ∧ (∀ i j, (hi : i < 64) → (hj : j < 64) → i < j → p[i] < p[j]) ∧
    (∀ q : Nat, q.Prime → q ≤ p[63] → ∃ i, ∃ h : i < 64, p[i] = q) ∧
    (∀ k, (h : k < 8) → ∃ n, n ^ 2 ≤ p[k] * 2 ^ 64 ∧ p[k] * 2 ^ 64 < (n + 1) ^ 2 ∧ romH[k].toNat = n % 2 ^ 32) ∧
    (∀ t, (h : t < 64) → ∃ n, n ^ 3 ≤ p[t] * 2 ^ 96 ∧ p[t] * 2 ^ 96 < (n + 1) ^ 3 ∧ romK[t].toNat = n % 2 ^ 32)

/-! ## Encodings -/

/-- Decoding the encoding of a well-formed operation gives it back, with every operand at every value (30_encoding.md
sections 2 and 3): no operand bit is dropped. -/
def Obligations.DecodeOfEncodeIsIdentity : Prop := ∀ i : Instr, i.WellFormed → decode (encode i) = .ok i

/-- The other direction for sequencer words (30_encoding.md section 3): a word that selects a micro-operation is that
operation's encoding, and the operation is well formed. -/
def Obligations.SequencerWordsHaveOneMeaning : Prop :=
  ∀ (w : BitVec 9) (i : Instr), decode (.seq w) = .ok i → i.WellFormed ∧ i.space = .seq ∧ encode i = .seq w

/-- The other direction for command words (30_encoding.md sections 2 and 4): the assembler's word is the word itself with its
ignored bits zero, all of `data` for `C0` and `data[7:5]` for `CK`; a reserved word decodes to `NOP`. -/
def Obligations.CommandWordsUpToIgnoredBits : Prop :=
  ∀ w : BitVec 11, ∃ i, decode (.cmd w) = .ok i ∧ i.WellFormed ∧ i.space = .cmd ∧
    (commandOp w = 1#3 → encode i = .cmd w) ∧ (commandOp w = 5#3 → encode i = .cmd (w &&& 0x71F#11)) ∧
    (commandOp w = 0#3 ∨ commandOp w = 2#3 ∨ commandOp w = 3#3 ∨ commandOp w = 4#3 → encode i = .cmd (w &&& 0x700#11)) ∧
    (commandOp w = 6#3 ∨ commandOp w = 7#3 → i = .nop)

/-- 30_encoding.md section 7: the decoder reads from a word the operation of the first row of the opcode table that the word
selects; a command word that selects no row is reserved and acts as `NOP`; a sequencer word that selects no row selects no
micro-operation. -/
def Obligations.DecoderFollowsTheFirstRow : Prop :=
  ∀ x : EncodedWord,
    (∀ row, firstRow x = some row → ∃ i, decode x = .ok i ∧ i.mnemonic = row.mnemonic) ∧
    (firstRow x = none → (x.space = .cmd → decode x = .ok .nop) ∧ (x.space = .seq → ∃ e, decode x = .error e))

/-- Words written out from the encodings of 30_encoding.md sections 2 and 3, one per row of the opcode table and some with
ignored bits set. -/
def Obligations.WordsOfTheTableDecode : Prop :=
  decode (.cmd 0b00011111111#11) = .ok .nop ∧ decode (.cmd 0b00110100101#11) = .ok (.push 0xA5#8) ∧
  decode (.cmd 0b01010100101#11) = .ok .start ∧ decode (.cmd 0b01100000000#11) = .ok .clr ∧
  decode (.cmd 0b10011111111#11) = .ok .rds ∧ decode (.cmd 0b10111100011#11) = .ok (.rdd 3#5) ∧
  decode (.cmd 0b11011111111#11) = .ok .nop ∧ decode (.seq 0b001000000#9) = .ok .chk ∧
  decode (.seq 0b010001111#9) = .ok (.ldw 15#4) ∧ decode (.seq 0b010010000#9) = .ok (.exw 16#6) ∧
  decode (.seq 0b011000000#9) = .ok .init ∧ decode (.seq 0b100111111#9) = .ok (.rnd 63#6) ∧
  decode (.seq 0b101000000#9) = .ok .fin ∧ decode (.seq 0b000000000#9) = .error .waiting ∧
  decode (.seq 0b001000001#9) = .error .unreachable

/-- 30_encoding.md section 4 (R68, U3): which sequencer words are unreachable and how many; the engine's turn is stuck there;
`RST` leaves every such word, and in a waiting phase `CLR` does; in the phases `CHECK`, `INIT` and `FINAL` no command changes
the engine. What `START` does in phase `IDLE` with `T` not 0 is the model's choice and not stated here (log entry 11). -/
def Obligations.UnreachableSequencerWordsAreStuck : Prop :=
  (∀ w : BitVec 9, decode (.seq w) = .error .unreachable ↔
    sequencerPhase w ≠ .sched ∧ sequencerPhase w ≠ .round ∧ sequencerIndex w ≠ 0#6) ∧
  ((List.range 512).filter (fun n => decide (decode (.seq (BitVec.ofNat 9 n)) = .error .unreachable))).length = 378 ∧
  ∀ s : State, decode (.seq s.engine.seq) = .error .unreachable →
    (s.inputs = [] → step s = .fault .stuckSequencer) ∧
    (∀ rest, s.inputs = .turn :: rest → step s = .fault .stuckSequencer) ∧
    (∀ rest, s.inputs = .rst :: rest → ∃ t, step s = .next t ∧ t.engine = State.reset.engine) ∧
    (∀ w rest, s.inputs = .cmd w :: rest → decodeCommand w = .clr →
      s.engine.ph = .idle ∨ s.engine.ph = .done ∨ s.engine.ph = .error → ∃ t, step s = .next t ∧ t.engine = State.reset.engine) ∧
    (∀ w rest, s.inputs = .cmd w :: rest → s.engine.ph = .check ∨ s.engine.ph = .init ∨ s.engine.ph = .final →
      ∃ t, step s = .next t ∧ t.engine = s.engine)

/-! ## Steps -/

/-- An engine step runs the micro-operation that `SEQ` selects, whether the turn is given by an event or no event waits
(44_transform.md section 5, R124; that an empty list of events gives the engine the turn is the model's choice, log
entry 1). -/
def Obligations.StepRunsTheSelectedMicroOp : Prop :=
  ∀ (s : State) (i : Instr), decode (.seq s.engine.seq) = .ok i →
    (s.inputs = [] → step s = exec i s) ∧
    ∀ rest, s.inputs = .turn :: rest → step s = exec i { s with inputs := rest }

/-- A host step runs the command that the presented word decodes to; every word decodes (00_scope.md section 4, R17;
30_encoding.md section 2). -/
def Obligations.StepRunsThePresentedCommand : Prop :=
  ∀ (s : State) (w : BitVec 11) (rest : List Input), s.inputs = .cmd w :: rest →
    ∃ i, decode (.cmd w) = .ok i ∧ i.WellFormed ∧ step s = exec i { s with inputs := rest }

/-- 44_transform.md section 5 (R125): in `IDLE`, `DONE` and `ERROR` with `T = 0` the engine has no step, and its turn changes
nothing; that such a turn is a step of the machine is the model's choice (log entry 1). -/
def Obligations.WaitingPhasesHaveNoEngineStep : Prop :=
  ∀ s : State, s.engine.ph = .idle ∨ s.engine.ph = .done ∨ s.engine.ph = .error → s.engine.t = 0#6 →
    (s.inputs = [] → step s = .next s) ∧ ∀ rest, s.inputs = .turn :: rest → step s = .next { s with inputs := rest }

/-- R124: the micro-operation of each sequencer register and its successor. The path depends on no data but `LEN` at `CHK`. -/
def Obligations.SequencerSuccessors : Prop :=
  ∀ s : State, s.inputs = [] →
    (s.engine.ph = .check → s.engine.t = 0#6 → step s = exec .chk s ∧ ∃ t, step s = .next t ∧ t.engine.t = 0#6 ∧
      (s.engine.len = 64#7 → t.engine.ph = .sched) ∧ (s.engine.len ≠ 64#7 → t.engine.ph = .error)) ∧
    (s.engine.ph = .sched → s.engine.t.toNat ≤ 15 → ∃ t, step s = exec (.ldw (s.engine.t.extractLsb' 0 4)) s ∧
      step s = .next t ∧ t.engine.ph = .sched ∧ t.engine.t.toNat = s.engine.t.toNat + 1) ∧
    (s.engine.ph = .sched → 16 ≤ s.engine.t.toNat → s.engine.t.toNat ≤ 62 → ∃ t, step s = exec (.exw s.engine.t) s ∧
      step s = .next t ∧ t.engine.ph = .sched ∧ t.engine.t.toNat = s.engine.t.toNat + 1) ∧
    (s.engine.ph = .sched → s.engine.t = 63#6 → ∃ t, step s = exec (.exw 63#6) s ∧
      step s = .next t ∧ t.engine.ph = .init ∧ t.engine.t = 0#6) ∧
    (s.engine.ph = .init → s.engine.t = 0#6 → ∃ t, step s = exec .init s ∧
      step s = .next t ∧ t.engine.ph = .round ∧ t.engine.t = 0#6) ∧
    (s.engine.ph = .round → s.engine.t.toNat ≤ 62 → ∃ t, step s = exec (.rnd s.engine.t) s ∧
      step s = .next t ∧ t.engine.ph = .round ∧ t.engine.t.toNat = s.engine.t.toNat + 1) ∧
    (s.engine.ph = .round → s.engine.t = 63#6 → ∃ t, step s = exec (.rnd 63#6) s ∧
      step s = .next t ∧ t.engine.ph = .final ∧ t.engine.t = 0#6) ∧
    (s.engine.ph = .final → s.engine.t = 0#6 → ∃ t, step s = exec .fin s ∧
      step s = .next t ∧ t.engine.ph = .done ∧ t.engine.t = 0#6)

/-! ## The host commands: results, completion and frames -/

/-- R117, and 30_encoding.md section 4 (R67): `NOP` and the two reserved opcodes, whatever their ignored bits: every phase, response 0x00, nothing else. -/
def Obligations.NopAndReservedChangeNothing : Prop :=
  (∀ s : State, exec .nop s = .next { s with resps := 0x00#8 :: s.resps }) ∧
  ∀ (s : State) (w : BitVec 11), commandOp w = 0#3 ∨ commandOp w = 6#3 ∨ commandOp w = 7#3 →
    exec (decodeCommand w) s = .next { s with resps := 0x00#8 :: s.resps }

/-- R118: `PUSH b` in every phase and at every `LEN`, with its frame: at most `IB[LEN]` and `LEN` change. -/
def Obligations.PushStoresCountsAndSaturates : Prop :=
  ∀ (s : State) (b : Byte), ∃ ib' len', exec (.push b) s =
      .next { s with engine := { s.engine with ib := ib', len := len' }, resps := 0x00#8 :: s.resps } ∧
    (s.engine.ph = .idle → s.engine.len.toNat < 64 → len'.toNat = s.engine.len.toNat + 1 ∧
      ∀ i, (h : i < 64) → ib'[i] = if i = s.engine.len.toNat then b else s.engine.ib[i]) ∧
    (s.engine.ph = .idle → s.engine.len.toNat = 64 → len'.toNat = 65 ∧ ib' = s.engine.ib) ∧
    (s.engine.ph = .idle → 64 < s.engine.len.toNat → len' = s.engine.len ∧ ib' = s.engine.ib) ∧
    (s.engine.ph ≠ .idle → len' = s.engine.len ∧ ib' = s.engine.ib)

/-- 44_transform.md section 3 (R119): `START` in every phase; accepted in `IDLE`, whatever `LEN` is; then `READY` is 0 and `BUSY`
is 1; and until an accepted `CLR` or an `RST` (or a loss of power) no step changes `IB` or `LEN`, or goes back to `IDLE`. That
`START` acts in `IDLE` with `T` not 0 as well, an unreachable word, is the model's choice (log entry 11; R68 says otherwise). -/
def Obligations.StartEntersCheck : Prop :=
  (∀ s : State, s.engine.ph = .idle → ∃ e, exec .start s = .next { s with engine := e, resps := 0x00#8 :: s.resps } ∧
    e = { s.engine with ph := .check, t := 0#6 } ∧ e.status.getLsbD 0 = false ∧ e.status.getLsbD 1 = true) ∧
  (∀ s : State, s.engine.ph ≠ .idle → exec .start s = .next { s with resps := 0x00#8 :: s.resps }) ∧
  (∀ s t : State, step s = .next t → s.engine.ph ≠ .idle → s.inputs.head? ≠ some .rst → s.inputs.head? ≠ some .power →
    (∀ w, s.inputs.head? = some (.cmd w) → decodeCommand w = .clr → busy s.engine.ph = true) →
    t.engine.ib = s.engine.ib ∧ t.engine.len = s.engine.len ∧ t.engine.ph ≠ .idle)

/-- R120: `CLR` in every phase: the reset state, bit for bit, in the three waiting phases; nothing in the five busy ones. -/
def Obligations.ClrRestoresTheResetState : Prop :=
  (∀ s : State, s.engine.ph = .idle ∨ s.engine.ph = .done ∨ s.engine.ph = .error →
    exec .clr s = .next { s with engine := State.reset.engine, resps := 0x00#8 :: s.resps }) ∧
  (∀ s : State, s.engine.ph = .check ∨ s.engine.ph = .sched ∨ s.engine.ph = .init ∨ s.engine.ph = .round ∨ s.engine.ph = .final →
    exec .clr s = .next { s with resps := 0x00#8 :: s.resps })

/-- R121: `RDS` in every phase: the four values of `STATUS`, and nothing changes; and `DONE` and `ERR` stay until a `CLR` or an
`RST` (or a loss of power). -/
def Obligations.RdsAnswersTheStatus : Prop :=
  (∀ s t : State, step s = .next t → s.engine.ph = .done ∨ s.engine.ph = .error → s.inputs.head? ≠ some .rst →
    s.inputs.head? ≠ some .power → (∀ w, s.inputs.head? = some (.cmd w) → decodeCommand w ≠ .clr) →
    t.engine.status = s.engine.status) ∧
  ∀ s : State, ∃ v, exec .rds s = .next { s with resps := v :: s.resps } ∧
    (s.engine.ph = .idle → v = 0x01#8) ∧
    (s.engine.ph = .check ∨ s.engine.ph = .sched ∨ s.engine.ph = .init ∨ s.engine.ph = .round ∨ s.engine.ph = .final →
      v = 0x02#8) ∧
    (s.engine.ph = .done → v = 0x04#8) ∧ (s.engine.ph = .error → v = 0x18#8)

/-- 44_transform.md section 3 (R122): `RDD k` in every phase answers `DG[k]` and changes nothing; `cmd[7:5]` is ignored. -/
def Obligations.RddAnswersTheDigestByte : Prop :=
  (∀ (s : State) (k : BitVec 5), exec (.rdd k) s = .next { s with resps := s.engine.dg[k.toNat] :: s.resps }) ∧
  ∀ (s : State) (w : BitVec 11), commandOp w = 5#3 →
    exec (decodeCommand w) s = .next { s with resps := s.engine.dg[(w.extractLsb' 0 5).toNat] :: s.resps }

/-- R26, and 10_state.md section 4 (R25): the fields of `STATUS`, bit by bit, as functions of `PH`; its value at reset; and that
`RDS` reads it. -/
def Obligations.StatusFieldsFollowThePhase : Prop :=
  State.reset.engine.status = 0x01#8 ∧ (∀ s : State, exec .rds s = .next { s with resps := s.engine.status :: s.resps }) ∧
  ∀ e : Engine,
    (e.status.getLsbD 0 = true ↔ e.ph = .idle) ∧
    (e.status.getLsbD 1 = true ↔ e.ph = .check ∨ e.ph = .sched ∨ e.ph = .init ∨ e.ph = .round ∨ e.ph = .final) ∧
    (e.status.getLsbD 2 = true ↔ e.ph = .done) ∧ (e.status.getLsbD 3 = true ↔ e.ph = .error) ∧
    e.status.extractLsb' 4 2 = (if e.ph = .error then 0b01#2 else 0b00#2) ∧ e.status.extractLsb' 6 2 = 0b00#2

/-- R64: every command word gives exactly one response, a function of the state before it and of the word. -/
def Obligations.EveryCommandWordIsAnswered : Prop :=
  ∀ (s : State) (w : BitVec 11), ∃ t v, exec (decodeCommand w) s = .next t ∧ t.resps = v :: s.resps ∧
    (commandOp w = 4#3 → v = s.engine.status) ∧
    (commandOp w = 5#3 → v = s.engine.dg[(w.extractLsb' 0 5).toNat]) ∧
    (commandOp w ≠ 4#3 → commandOp w ≠ 5#3 → v = 0x00#8)

/-- 44_transform.md sections 2 and 3 (R116, and R118 to R120 for the effects): an ignored command changes no state and answers
0x00; the reads, `NOP` and the reserved words are accepted in every phase and change no state; an accepted `PUSH`, `START` or
`CLR` has its effect. That `START` acts in `IDLE` with `T` not 0 as well, an unreachable word, is the model's choice (log
entry 11; R68 says otherwise). -/
def Obligations.CommandAcceptanceByPhase : Prop :=
  ∀ (s : State) (w : BitVec 11), ∃ t, exec (decodeCommand w) s = .next t ∧
    (commandOp w = 1#3 ∨ commandOp w = 2#3 → s.engine.ph ≠ .idle → t = { s with resps := 0x00#8 :: s.resps }) ∧
    (commandOp w = 3#3 → s.engine.ph ≠ .idle → s.engine.ph ≠ .done → s.engine.ph ≠ .error →
      t = { s with resps := 0x00#8 :: s.resps }) ∧
    (commandOp w = 0#3 ∨ commandOp w = 6#3 ∨ commandOp w = 7#3 → t = { s with resps := 0x00#8 :: s.resps }) ∧
    (commandOp w = 4#3 ∨ commandOp w = 5#3 → t.engine = s.engine) ∧
    (commandOp w = 1#3 → s.engine.ph = .idle → s.engine.len.toNat < 64 → t.engine.len.toNat = s.engine.len.toNat + 1) ∧
    (commandOp w = 2#3 → s.engine.ph = .idle → t.engine.ph = .check) ∧
    (commandOp w = 3#3 → s.engine.ph = .idle ∨ s.engine.ph = .done ∨ s.engine.ph = .error → t.engine = State.reset.engine)

/-! ## The micro-operations: results, completion and frames -/

/-- R123: `CHK`, at every `LEN`: only `PH` and `T` change. The failure is the entry of `InvalidInputLength`; then `ERR` is 1 and,
in a state of the reachable shape, `W`, `R` and `DG` are still all zero. -/
def Obligations.ChkAcceptsExactlySixtyFour : Prop :=
  ∀ s : State, ∃ p, exec .chk s = .next { s with engine := { s.engine with ph := p, t := 0#6 } } ∧
    (s.engine.len.toNat = 64 → p = .sched) ∧
    (s.engine.len.toNat ≠ 64 → p = .error ∧ (statusOf p).getLsbD 3 = true ∧
      (s.engine.ph = .check → s.engine.ReachableShape → s.engine.w = State.reset.engine.w ∧ s.engine.r = State.reset.engine.r ∧
        s.engine.dg = State.reset.engine.dg))

/-- R88: `LDW t` for every `t`: the big-endian word, `T = t + 1`, and nothing else. -/
def Obligations.LdwLoadsTheBlockWord : Prop :=
  ∀ (s : State) (t : BitVec 4), ∃ w' t', exec (.ldw t) s = .next { s with engine := { s.engine with w := w', t := t' } } ∧
    t'.toNat = t.toNat + 1 ∧ (∀ i, (h : i < 64) → i ≠ t.toNat → w'[i] = s.engine.w[i]) ∧
    w'[t.toNat].toNat = s.engine.ib[4 * t.toNat].toNat * 2 ^ 24 + s.engine.ib[4 * t.toNat + 1].toNat * 2 ^ 16 +
      s.engine.ib[4 * t.toNat + 2].toNat * 2 ^ 8 + s.engine.ib[4 * t.toNat + 3].toNat

/-- R89: `EXW t` for every `t` of 16 to 63: the sum modulo 2^32, the successor, and nothing else. -/
def Obligations.ExwExpandsTheSchedule : Prop :=
  ∀ (s : State) (t : BitVec 6) (lo : 16 ≤ t.toNat), ∃ w' p t',
    exec (.exw t) s = .next { s with engine := { s.engine with w := w', ph := p, t := t' } } ∧
    (∀ i, (h : i < 64) → i ≠ t.toNat → w'[i] = s.engine.w[i]) ∧
    w'[t.toNat].toNat = ((s.engine.w[t.toNat - 16]).toNat + (ssig0 s.engine.w[t.toNat - 15]).toNat +
      (s.engine.w[t.toNat - 7]).toNat + (ssig1 s.engine.w[t.toNat - 2]).toNat) % 2 ^ 32 ∧
    (t.toNat < 63 → p = s.engine.ph ∧ t'.toNat = t.toNat + 1) ∧ (t.toNat = 63 → p = .init ∧ t' = 0#6)

/-- A term `EXW t` with `t` below 16 is no operation of the table and is refused by name (00_scope.md section 4: "the
primitives are not defined there"); that the refusal is the answer is the model's choice (log entry 5). -/
def Obligations.ExwBelowSixteenIsRefused : Prop :=
  ∀ (s : State) (t : BitVec 6), t.toNat < 16 → exec (.exw t) s = .refused .indexOutsideRange ∧ ¬ (Instr.exw t).WellFormed

/-- R96: `INIT`: the eight initial hash values of R80, written out, and nothing else but `PH` and `T`. -/
def Obligations.InitLoadsTheHashValues : Prop :=
  ∀ s : State, exec .init s = .next { s with engine := { s.engine with
      r := #v[0x6A09E667#32, 0xBB67AE85#32, 0x3C6EF372#32, 0xA54FF53A#32, 0x510E527F#32, 0x9B05688C#32, 0x1F83D9AB#32,
        0x5BE0CD19#32],
      ph := .round, t := 0#6 } }

/-- R101, R102, R103: `RND t` for every `t`: the two sums modulo 2^32, the eight registers from the values before the step,
the successor, and nothing else. -/
def Obligations.RndMixesTheRegisters : Prop :=
  ∀ (s : State) (t : BitVec 6), ∃ r' p t' t1 t2,
    exec (.rnd t) s = .next { s with engine := { s.engine with r := r', ph := p, t := t' } } ∧
    t1 = (s.engine.r[7].toNat + (bsig1 s.engine.r[4]).toNat + (ch s.engine.r[4] s.engine.r[5] s.engine.r[6]).toNat +
      romK[t.toNat].toNat + s.engine.w[t.toNat].toNat) % 2 ^ 32 ∧
    t2 = ((bsig0 s.engine.r[0]).toNat + (maj s.engine.r[0] s.engine.r[1] s.engine.r[2]).toNat) % 2 ^ 32 ∧
    r'[7] = s.engine.r[6] ∧ r'[6] = s.engine.r[5] ∧ r'[5] = s.engine.r[4] ∧ r'[4].toNat = (s.engine.r[3].toNat + t1) % 2 ^ 32 ∧
    r'[3] = s.engine.r[2] ∧ r'[2] = s.engine.r[1] ∧ r'[1] = s.engine.r[0] ∧ r'[0].toNat = (t1 + t2) % 2 ^ 32 ∧
    (t.toNat < 63 → p = s.engine.ph ∧ t'.toNat = t.toNat + 1) ∧ (t.toNat = 63 → p = .final ∧ t' = 0#6)

/-- 42_rounds.md section 5 (R104, the spec's own inference): the eight assignments done in order give the same registers as
all of them at once. -/
def Obligations.RoundInOrderAgrees : Prop :=
  ∀ (r : Vector Word 8) (k w : Word), roundStepInOrder r k w = roundStep r k w

/-- 42_rounds.md section 6 (R105, the spec's own inference): for fixed `K[t]` and `W[t]` a round is a one-to-one map of the
registers, undone by the formulas of the rule. -/
def Obligations.RoundIsOneToOne : Prop :=
  ∀ (r : Vector Word 8) (k w : Word), roundUndo (roundStep r k w) k w = r ∧ roundStep (roundUndo r k w) k w = r

/-- R111, R112: `FIN`: byte `4k + j` of `DG` is byte `j`, most significant first, of `(H[k] + R[k]) mod 2^32`; all 32 bytes,
`PH` and `T` in one step, and nothing else. -/
def Obligations.FinSerialisesTheDigest : Prop :=
  ∀ s : State, ∃ dg', exec .fin s = .next { s with engine := { s.engine with dg := dg', ph := .done, t := 0#6 } } ∧
    ∀ k j, (hk : k < 8) → (hj : j < 4) →
      dg'[4 * k + j].toNat = (romH[k].toNat + s.engine.r[k].toNat) % 2 ^ 32 / 2 ^ (8 * (3 - j)) % 256

/-! ## Rules about the whole machine -/

/-- 10_state.md section 1 (R20, who writes it): which operations can change each of the seven items. -/
def Obligations.WhoWritesEachItem : Prop :=
  ∀ (i : Instr) (s t : State), exec i s = .next t →
    (t.engine.ib ≠ s.engine.ib → (∃ b, i = .push b) ∨ i = .clr) ∧
    (t.engine.len ≠ s.engine.len → (∃ b, i = .push b) ∨ i = .clr) ∧
    (t.engine.w ≠ s.engine.w → (∃ u, i = .ldw u) ∨ (∃ u, i = .exw u) ∨ i = .clr) ∧
    (t.engine.r ≠ s.engine.r → i = .init ∨ (∃ u, i = .rnd u) ∨ i = .clr) ∧
    (t.engine.dg ≠ s.engine.dg → i = .fin ∨ i = .clr) ∧
    (t.engine.ph ≠ s.engine.ph →
      i = .start ∨ i = .chk ∨ (∃ u, i = .exw u) ∨ i = .init ∨ (∃ u, i = .rnd u) ∨ i = .fin ∨ i = .clr) ∧
    (t.engine.t ≠ s.engine.t → (∃ u, i = .ldw u) ∨
      i = .start ∨ i = .chk ∨ (∃ u, i = .exw u) ∨ i = .init ∨ (∃ u, i = .rnd u) ∨ i = .fin ∨ i = .clr)

/-- 60_exceptions.md sections 1 and 4 (R141, R145): a step enters `ERROR` only by `CHK` with a length other than 64, and then
the engine is as before but for `PH` and `T`. Power is left out: what it leaves is unspecified. -/
def Obligations.OnlyChkRaises : Prop :=
  ∀ s t : State, step s = .next t → s.inputs.head? ≠ some .power → s.engine.ph ≠ .error → t.engine.ph = .error →
    s.engine.ph = .check ∧ s.engine.len ≠ 64#7 ∧ t.engine = { s.engine with ph := .error, t := 0#6 } ∧
      t.resps = s.resps

/-- 44_transform.md section 5 (R125): `IDLE` is left only by an accepted `START`; `DONE` and `ERROR` only by an accepted
`CLR`; `RST` leaves any phase. Power is left out. -/
def Obligations.OnlyHostLeavesAWaitingPhase : Prop :=
  ∀ s t : State, step s = .next t → s.inputs.head? ≠ some .power → t.engine.ph ≠ s.engine.ph →
    (s.engine.ph = .idle → ∃ w, s.inputs.head? = some (.cmd w) ∧ decodeCommand w = .start) ∧
    (s.engine.ph = .done ∨ s.engine.ph = .error →
      s.inputs.head? = some .rst ∨ ∃ w, s.inputs.head? = some (.cmd w) ∧ decodeCommand w = .clr)

/-- 20_memory.md section 6 (R47): in `DONE` and in `ERROR` (at `T = 0`), through any events but a `CLR`, an `RST` and a loss
of power, the engine stays as it is; so every later `RDS` and `RDD` answers as before. -/
def Obligations.StoppedEngineStays : Prop :=
  ∀ (xs rest : List Input) (s : State), s.engine.ph = .done ∨ s.engine.ph = .error → s.engine.t = 0#6 →
    s.inputs = xs ++ rest → .rst ∉ xs → .power ∉ xs → (∀ w, .cmd w ∈ xs → decodeCommand w ≠ .clr) →
    ∃ t, runSteps xs.length s = .next t ∧ t.engine = s.engine ∧ t.inputs = rest ∧ t.powerUps = s.powerUps

/-- 70_reset_and_hazards.md section 3 and 44_transform.md section 2 (R165, R170): the command words presented while the engine
is busy are all lost, whatever they are and however many: the engine is as before and every answer but a read's is 0x00.
The `CLR` of a host that has not pulsed `RST` is lost in the same way (R162). -/
def Obligations.CommandsWhileBusyAreLost : Prop :=
  ∀ (ws : List (BitVec 11)) (rest : List Input) (s : State), busy s.engine.ph = true → s.inputs = ws.map .cmd ++ rest →
    ∃ t, runSteps ws.length s = .next t ∧ t.engine = s.engine ∧ t.inputs = rest ∧
      t.resps.length = s.resps.length + ws.length

/-- 10_state.md section 8 and 44_transform.md section 5 (R33, R124): the path of the sequencer depends on no data but `LEN`: two
machines that agree on `PH`, `T`, `LEN` and on what happens next agree on them after the step, and one stops as the other. -/
def Obligations.ControlDependsOnLengthAlone : Prop :=
  ∀ s1 s2 : State, s1.inputs = s2.inputs → s1.inputs.head? ≠ some .power → s1.engine.ph = s2.engine.ph →
    s1.engine.t = s2.engine.t → s1.engine.len = s2.engine.len →
    (∀ t1, step s1 = .next t1 → ∃ t2, step s2 = .next t2 ∧ t1.inputs = t2.inputs ∧ t1.engine.ph = t2.engine.ph ∧
      t1.engine.t = t2.engine.t ∧ t1.engine.len = t2.engine.len) ∧
    (∀ r, step s1 = .fault r → step s2 = .fault r)

/-- 10_state.md section 8 (R33): what the host can learn of the hidden state is whether `LEN` was 64 and the digest: two sound
machines past `IDLE` in the same place, whose lengths are both 64, with blocks of the same digest, or both not 64, whatever
they hold, answer every run of the same events with the same responses. `IDLE` is left out: there the
block and its length can still change. -/
def Obligations.HostLearnsOnlyLengthAndDigest : Prop :=
  ∀ s1 s2 : State, s1.engine.Sound → s2.engine.Sound → s1.inputs = s2.inputs → .power ∉ s1.inputs → s1.resps = s2.resps →
    s1.engine.ph = s2.engine.ph → s1.engine.ph ≠ .idle → s1.engine.t = s2.engine.t →
    (s1.engine.len = 64#7 ↔ s2.engine.len = 64#7) → (s1.engine.len = 64#7 → compress s1.engine.ib = compress s2.engine.ib) →
    ∀ n t1 t2, runSteps n s1 = .next t1 → runSteps n s2 = .next t2 → t1.resps = t2.resps

/-! ## Invariants -/

/-- The invariant holds at reset. Its clauses `full`, `mixing`, `mixed` are the model's strengthening of R34 (log entry 10). -/
def Obligations.SoundAtReset : Prop := State.reset.engine.Sound

/-- Every step keeps the invariant: commands, `RST` pulses and engine turns; power is left out, as what it leaves is
unspecified (10_state.md section 9, the spec's own inference R34; log entry 10). -/
def Obligations.StepKeepsSound : Prop :=
  ∀ s t : State, s.engine.Sound → s.inputs.head? ≠ some .power → step s = .next t → t.engine.Sound

/-- No step from a sound engine faults or is refused: a micro-operation of a busy phase is always possible (44_transform.md
section 5, R125; 70_reset_and_hazards.md section 4, R172: "The engine has no way to hang"). -/
def Obligations.SoundEngineAlwaysSteps : Prop := ∀ s : State, s.engine.Sound → ∃ t, step s = .next t

/-- 10_state.md section 9 (R34, the spec's own inference): every state reached from reset by any sequence of commands, `RST`
pulses and engine turns satisfies I1 to I9, and the machine never stops on the way: what `SoundAtReset`, `StepKeepsSound` and
`SoundEngineAlwaysSteps` give together. -/
def Obligations.ReachableStatesSatisfyI1ToI9 : Prop :=
  ∀ (xs : List Input) (n : Nat), .power ∉ xs →
    ∃ t, runSteps n { State.reset with inputs := xs } = .next t ∧ t.engine.ReachableShape

/-- 60_exceptions.md section 4, 44_transform.md section 6 (R134, R145), with the invariant: in every phase but `DONE` each
`RDD k` of a sound engine answers 0x00, so a failed transform shows nothing but its failure. -/
def Obligations.NoPartialResultBeforeDone : Prop :=
  ∀ (s : State) (k : BitVec 5), s.engine.Sound → s.engine.ph ≠ .done →
    exec (.rdd k) s = .next { s with resps := 0x00#8 :: s.resps }

/-! ## The transform -/

/-- 41_schedule.md section 5 (R90): `SCHEDULE(B)` word by word. -/
def Obligations.ScheduleMeetsItsRecurrence : Prop :=
  ∀ B : Vector Byte 64,
    (∀ t, (h : t < 16) → (schedule B)[t] = be32 B[4 * t] B[4 * t + 1] B[4 * t + 2] B[4 * t + 3]) ∧
    (∀ t, (lo : 16 ≤ t) → (hi : t < 64) → (schedule B)[t] =
      add32 (add32 (add32 (schedule B)[t - 16] (ssig0 (schedule B)[t - 15])) (schedule B)[t - 7]) (ssig1 (schedule B)[t - 2]))

/-- 41_schedule.md section 5 (R90, the spec's own inference): from `SCHED` with `T = 0`, 64 engine steps put the schedule of the
block into `W`, whatever `W` held before, and change nothing else. -/
def Obligations.SchedulePhaseFillsW : Prop :=
  ∀ s : State, s.inputs = [] → s.engine.ph = .sched → s.engine.t = 0#6 →
    runSteps 64 s = .next { s with engine := { s.engine with w := schedule s.engine.ib, ph := .init, t := 0#6 } }

/-- 42_rounds.md section 6 (R105, the spec's own inference): from `INIT`, 65 engine steps put the registers after 64 rounds over
`W` into `R`, whatever `R` held before, and change nothing else. -/
def Obligations.RoundPhasesMixR : Prop :=
  ∀ s : State, s.inputs = [] → s.engine.ph = .init → s.engine.t = 0#6 →
    runSteps 65 s = .next { s with engine := { s.engine with r := rounds s.engine.w, ph := .final, t := 0#6 } }

/-- 43_finalizer.md section 4 (R113, the spec's own inference): from `FINAL`, one engine step puts the digest of `R` into `DG`
and changes nothing else; and `DIGEST` is one-to-one. -/
def Obligations.FinalStepWritesAOneToOneDigest : Prop :=
  (∀ s : State, s.inputs = [] → s.engine.ph = .final → s.engine.t = 0#6 →
    step s = .next { s with engine := { s.engine with dg := digest s.engine.r, ph := .done, t := 0#6 } }) ∧
  ∀ r r' : Vector Word 8, digest r = digest r' → r = r'

/-- 44_transform.md section 5, 70_reset_and_hazards.md section 4 (R126, R172, the spec's own inference): from `CHECK` the engine
takes exactly 131 steps when `LEN = 64` and exactly 1 otherwise: busy before each of them and stopped after the last. -/
def Obligations.EngineStepCounts : Prop :=
  ∀ s : State, s.inputs = [] → s.engine.ph = .check → s.engine.t = 0#6 →
    (s.engine.len = 64#7 →
      (∀ n, n < 131 → ∃ t, runSteps n s = .next t ∧ busy t.engine.ph = true ∧ step t ≠ .next t) ∧
      ∃ t, runSteps 131 s = .next t ∧ t.engine.ph = .done ∧ step t = .next t) ∧
    (s.engine.len ≠ 64#7 → ∃ t, runSteps 1 s = .next t ∧ t.engine.ph = .error ∧ step t = .next t)

/-- 44_transform.md section 6 (R131, the spec's own inference), end to end: from the reset state, `PUSH` of the bytes of `B` in
order and `START`, then the engine runs. After the host's steps and the engine's 131 (or 1), it has stopped with
`TRANSFORM(B)`: `DONE`, `STATUS = 0x04` and `DG = COMPRESS(B)`, or `ERROR`, `STATUS = 0x18` and `W`, `R`, `DG` as at reset. -/
def Obligations.TransformEndToEnd : Prop :=
  ∀ (B : List Byte) (s : State), s.engine = State.reset.engine → s.inputs = pseudoLoad B ++ issue .start →
    ∃ t, runSteps (B.length + 1 + engineSteps B) s = .next t ∧ t.inputs = [] ∧ t.engine.result = some (transform B) ∧
      (B.length = 64 → t.engine.ph = .done ∧ t.engine.status = 0x04#8 ∧ transform B = .ok t.engine.dg) ∧
      (B.length ≠ 64 → t.engine.ph = .error ∧ t.engine.status = 0x18#8 ∧ t.engine.w = State.reset.engine.w ∧
        t.engine.r = State.reset.engine.r ∧ t.engine.dg = State.reset.engine.dg)

/-- 44_transform.md section 6 (R132, R133, the spec's own inference): however the host's commands and the engine's turns
interleave, and whatever reads, `NOP`s, reserved commands and commands ignored while busy the host adds, the engine stops in
the one state that the bytes pushed before the `START` determine, every piece of it. -/
def Obligations.TransformIgnoresInterleaving : Prop :=
  ∀ (B : List Byte) (before after : List Input) (w : BitVec 11) (s : State),
    pushedBytes before = some B → decodeCommand w = .start → undisturbed (engineSteps B) after = true →
    s.engine = State.reset.engine → s.inputs = before ++ .cmd w :: after →
    ∃ t, runSteps (before.length + 1 + after.length + engineSteps B) s = .next t ∧ t.inputs = [] ∧
      t.engine = Engine.stopped B ∧ step t = .next t

/-- 30_encoding.md section 6 (R71) and 44_transform.md section 6 (R131, R134, R147): `XFORM` on an engine that waits in any of
the three waiting phases, whatever it holds (a digest, a failure, bytes of an abandoned input): if the engine has had its
steps by the last poll, that poll answers 0x04 and the 32 answers of `GETD` are the digest, or it answers 0x18 and they are
all zero. That the number of polls, and of engine turns before each, is an argument is the model's choice (log entry 13). -/
def Obligations.XformAnswersTheDigest : Prop :=
  ∀ (B : List Byte) (turns : List Nat) (s : State),
    s.engine.ph = .idle ∨ s.engine.ph = .done ∨ s.engine.ph = .error → s.inputs = pseudoXform B turns →
    engineSteps B ≤ turns.sum →
    ∃ t, runSteps s.inputs.length s = .next t ∧ t.inputs = [] ∧ t.engine = Engine.stopped B ∧
      (B.length = 64 → (t.resps.take 33).reverse = 0x04#8 :: (compress (blockOf B)).toList) ∧
      (B.length ≠ 64 → (t.resps.take 33).reverse = 0x18#8 :: List.replicate 32 0x00#8)

/-! ## Host programs -/

/-- 30_encoding.md section 6 (R70): what the assembler emits for a line is the `RST` pulse or the canonical word of a command;
it never emits a reserved opcode, and it refuses an operand out of range. -/
def Obligations.AssemblerEmitsCanonicalWords : Prop :=
  (∀ (line : List Char) (xs : List Input), assembleLine line = .ok xs →
    xs = [.rst] ∨ ∃ i w, i.space = .cmd ∧ encode i = .cmd w ∧ decode (.cmd w) = .ok i ∧ (commandOp w).toNat ≤ 5 ∧ xs = [.cmd w]) ∧
  (∀ (x : List Char) (n : Nat), numeral x = some n → 255 < n →
    assembleParts [['P', 'U', 'S', 'H'], x] = .error .operandOutOfRange) ∧
  (∀ (x : List Char) (n : Nat), numeral x = some n → 31 < n → assembleParts [['R', 'D', 'D'], x] = .error .operandOutOfRange)
end

