-- ==== Sys2Proof/Machine/Chip.lean ====
section
/-! DEFINITION. Several engines on one chip: "the product of `n` independent copies" (60_exceptions.md R153,
93_implementation_defined.md U8). Sys2Proof.core is one engine (log entry 7). -/

namespace Sys2Proof.Machine

/-- The engines of a chip; `N_INSTANCES` is their number (00_scope.md R5). They share nothing that can change (R48, R153). -/
structure Chip where
  engines : List State
deriving DecidableEq, Repr

/-- A chip of `n` engines right after reset. DESIGN CHOICE (log entry 14): every engine counts its power-ons from 0, so two
engines with the same count hold the same contents after power, where R161 allows any value of each. -/
def Chip.reset (n : Nat) : Chip := ⟨List.replicate n State.reset⟩

/-- One atomic step of engine `k`; a fault or refusal of one engine is reported as its own. -/
def Chip.stepEngine (c : Chip) (k : Fin c.engines.length) : Host.Outcome Chip Fault Refusal :=
  match step c.engines[k] with
  | .next s => .next ⟨c.engines.set k s⟩
  | .fault r => .fault r
  | .refused r => .refused r

end Sys2Proof.Machine
end

