-- ==== Sys2Proof/Laws/Chip.lean ====
section
/-! SUPPORT. What a step of one engine of a chip can do (60_exceptions.md R153). -/

namespace Sys2Proof.Machine

/-- A step of engine `k` is a step of the machine on that engine, and every other engine is as before. -/
theorem Chip.stepEngine_next {c c' : Chip} {k : Fin c.engines.length} (h : c.stepEngine k = .next c') :
    ∃ s, step c.engines[k] = .next s ∧ c'.engines[k.val]? = some s ∧ c'.engines.length = c.engines.length ∧
      ∀ j, j ≠ k.val → c'.engines[j]? = c.engines[j]? := by
  unfold Chip.stepEngine at h
  cases hs : step c.engines[k] with
  | next s =>
    rw [hs] at h; cases h
    exact ⟨s, rfl, by simp, by simp, fun j hj => List.getElem?_set_ne (Ne.symm hj)⟩
  | fault r => rw [hs] at h; cases h
  | refused r => rw [hs] at h; cases h

end Sys2Proof.Machine
end

