-- ==== Sys2Proof/Laws/Decode.lean ====
section
/-! SUPPORT. Small lemmas of the decoder and of the fields of its words. -/

namespace Sys2Proof

theorem Phase.ofCode_code (ph : Phase) : Phase.ofCode ph.code = ph := by cases ph <;> rfl

theorem sequencerPhase_sequencerWord (ph : Phase) (t : BitVec 6) : sequencerPhase (sequencerWord ph t) = ph := by
  have h : (sequencerWord ph t).extractLsb' 6 3 = ph.code := by
    apply BitVec.eq_of_getLsbD_eq
    intro i hi
    simp only [sequencerWord, BitVec.getLsbD_extractLsb', BitVec.getLsbD_append]
    simp [hi]
  rw [sequencerPhase, h, Phase.ofCode_code]

theorem sequencerIndex_sequencerWord (ph : Phase) (t : BitVec 6) : sequencerIndex (sequencerWord ph t) = t := by
  apply BitVec.eq_of_getLsbD_eq
  intro i hi
  simp only [sequencerIndex, sequencerWord, BitVec.getLsbD_extractLsb', BitVec.getLsbD_append]
  simp [hi]

/-- Decoding the sequencer word of a phase and an index selects by phase and index (R66). -/
@[simp] theorem decodeSequencer_sequencerWord (ph : Phase) (t : BitVec 6) :
    decodeSequencer (sequencerWord ph t) = selectMicroOp ph t := by
  rw [decodeSequencer, sequencerPhase_sequencerWord, sequencerIndex_sequencerWord]

/-- What a sequencer register can select, with the phase and the index it needs (R66). -/
theorem selectMicroOp_cases {ph : Phase} {t : BitVec 6} {i : Instr} (h : selectMicroOp ph t = .ok i) :
    (ph = .check ∧ t = 0#6 ∧ i = .chk) ∨ (ph = .sched ∧ t.toNat < 16 ∧ i = .ldw (t.extractLsb' 0 4)) ∨
    (ph = .sched ∧ 16 ≤ t.toNat ∧ i = .exw t) ∨ (ph = .init ∧ t = 0#6 ∧ i = .init) ∨ (ph = .round ∧ i = .rnd t) ∨
    (ph = .final ∧ t = 0#6 ∧ i = .fin) := by
  unfold selectMicroOp at h
  cases ph <;> simp only at h
  case round => simp_all
  all_goals
    split at h <;> first
      | (injection h with h; subst h; simp_all)
      | cases h

/-- A command word decodes to a command, never to a micro-operation (R60, R62). -/
theorem decodeCommand_cases (w : BitVec 11) :
    decodeCommand w = .nop ∨ (∃ b, decodeCommand w = .push b) ∨ decodeCommand w = .start ∨ decodeCommand w = .clr ∨
    decodeCommand w = .rds ∨ ∃ k, decodeCommand w = .rdd k := by
  unfold decodeCommand
  split <;> simp

/-- The canonical word of a command decodes to it (R62), operand by operand. -/
theorem commandByte_append (c : BitVec 3) (b : Byte) : commandByte (c ++ b : BitVec (3 + 8)) = b := by
  apply BitVec.eq_of_getLsbD_eq
  intro i hi
  simp only [commandByte, BitVec.getLsbD_extractLsb', BitVec.getLsbD_append]
  simp [hi]

theorem commandOp_append (c : BitVec 3) (b : Byte) : commandOp (c ++ b : BitVec (3 + 8)) = c := by
  apply BitVec.eq_of_getLsbD_eq
  intro i hi
  simp only [commandOp, BitVec.getLsbD_extractLsb', BitVec.getLsbD_append]
  simp [hi]

end Sys2Proof
end

