-- ==== Sys2Proof/Laws/State.lean ====
section
/-! SUPPORT. One lemma per field per update of the state, so that no proof unfolds a record update. -/

namespace Sys2Proof.Machine

section
variable (s : State) (e : Engine) (p : Phase) (t : BitVec 6) (b : Byte) (n : Nat)

@[simp] theorem State.withEngine_engine : (s.withEngine e).engine = e := rfl
@[simp] theorem State.withEngine_inputs : (s.withEngine e).inputs = s.inputs := rfl
@[simp] theorem State.withEngine_resps : (s.withEngine e).resps = s.resps := rfl
@[simp] theorem State.withEngine_powerUps : (s.withEngine e).powerUps = s.powerUps := rfl

@[simp] theorem State.respond_engine : (s.respond e b).engine = e := rfl
@[simp] theorem State.respond_inputs : (s.respond e b).inputs = s.inputs := rfl
@[simp] theorem State.respond_resps : (s.respond e b).resps = b :: s.resps := rfl
@[simp] theorem State.respond_powerUps : (s.respond e b).powerUps = s.powerUps := rfl

@[simp] theorem applyPower_engine : (applyPower s).engine = Engine.powerOn s.powerUps := rfl
@[simp] theorem applyPower_inputs : (applyPower s).inputs = s.inputs := rfl
@[simp] theorem applyPower_resps : (applyPower s).resps = s.resps := rfl
@[simp] theorem applyPower_powerUps : (applyPower s).powerUps = s.powerUps + 1 := rfl

@[simp] theorem Engine.goto_ib : (e.goto p t).ib = e.ib := rfl
@[simp] theorem Engine.goto_len : (e.goto p t).len = e.len := rfl
@[simp] theorem Engine.goto_w : (e.goto p t).w = e.w := rfl
@[simp] theorem Engine.goto_r : (e.goto p t).r = e.r := rfl
@[simp] theorem Engine.goto_dg : (e.goto p t).dg = e.dg := rfl
@[simp] theorem Engine.goto_ph : (e.goto p t).ph = p := rfl
@[simp] theorem Engine.goto_t : (e.goto p t).t = t := rfl

@[simp] theorem Engine.raise_ib : e.raiseInvalidInputLength.ib = e.ib := rfl
@[simp] theorem Engine.raise_len : e.raiseInvalidInputLength.len = e.len := rfl
@[simp] theorem Engine.raise_w : e.raiseInvalidInputLength.w = e.w := rfl
@[simp] theorem Engine.raise_r : e.raiseInvalidInputLength.r = e.r := rfl
@[simp] theorem Engine.raise_dg : e.raiseInvalidInputLength.dg = e.dg := rfl
@[simp] theorem Engine.raise_ph : e.raiseInvalidInputLength.ph = .error := rfl
@[simp] theorem Engine.raise_t : e.raiseInvalidInputLength.t = 0#6 := rfl

@[simp] theorem Engine.clear_eq : e.clear = Engine.reset := rfl
@[simp] theorem Engine.reset_ib : Engine.reset.ib = Vector.replicate 64 0#8 := rfl
@[simp] theorem Engine.reset_len : Engine.reset.len = 0#7 := rfl
@[simp] theorem Engine.reset_w : Engine.reset.w = Vector.replicate 64 0#32 := rfl
@[simp] theorem Engine.reset_r : Engine.reset.r = Vector.replicate 8 0#32 := rfl
@[simp] theorem Engine.reset_dg : Engine.reset.dg = Vector.replicate 32 0#8 := rfl
@[simp] theorem Engine.reset_ph : Engine.reset.ph = .idle := rfl
@[simp] theorem Engine.reset_t : Engine.reset.t = 0#6 := rfl

@[simp] theorem Engine.pushByte_w : (e.pushByte b).w = e.w := by unfold Engine.pushByte; split <;> [rfl; (split <;> rfl)]
@[simp] theorem Engine.pushByte_r : (e.pushByte b).r = e.r := by unfold Engine.pushByte; split <;> [rfl; (split <;> rfl)]
@[simp] theorem Engine.pushByte_dg : (e.pushByte b).dg = e.dg := by unfold Engine.pushByte; split <;> [rfl; (split <;> rfl)]
@[simp] theorem Engine.pushByte_ph : (e.pushByte b).ph = e.ph := by unfold Engine.pushByte; split <;> [rfl; (split <;> rfl)]
@[simp] theorem Engine.pushByte_t : (e.pushByte b).t = e.t := by unfold Engine.pushByte; split <;> [rfl; (split <;> rfl)]

@[simp] theorem Engine.expand_ib (lo : 16 ≤ t.toNat) : (e.expand t lo).ib = e.ib := by unfold Engine.expand; simp only; split <;> rfl
@[simp] theorem Engine.expand_len (lo : 16 ≤ t.toNat) : (e.expand t lo).len = e.len := by unfold Engine.expand; simp only; split <;> rfl
@[simp] theorem Engine.expand_w (lo : 16 ≤ t.toNat) :
    (e.expand t lo).w = e.w.set t.toNat (expandWord e.w t.toNat lo t.isLt) := by unfold Engine.expand; simp only; split <;> rfl
@[simp] theorem Engine.expand_r (lo : 16 ≤ t.toNat) : (e.expand t lo).r = e.r := by unfold Engine.expand; simp only; split <;> rfl
@[simp] theorem Engine.expand_dg (lo : 16 ≤ t.toNat) : (e.expand t lo).dg = e.dg := by unfold Engine.expand; simp only; split <;> rfl
@[simp] theorem Engine.expand_ph (lo : 16 ≤ t.toNat) : (e.expand t lo).ph = if t.toNat < 63 then e.ph else .init := by
  unfold Engine.expand; simp only; split <;> rfl
@[simp] theorem Engine.expand_t (lo : 16 ≤ t.toNat) : (e.expand t lo).t = if t.toNat < 63 then t + 1#6 else 0#6 := by
  unfold Engine.expand; simp only; split <;> rfl

@[simp] theorem Engine.round_ib : (e.round t).ib = e.ib := by unfold Engine.round; simp only; split <;> rfl
@[simp] theorem Engine.round_len : (e.round t).len = e.len := by unfold Engine.round; simp only; split <;> rfl
@[simp] theorem Engine.round_w : (e.round t).w = e.w := by unfold Engine.round; simp only; split <;> rfl
@[simp] theorem Engine.round_r : (e.round t).r = roundStep e.r (roundConstant t) (scheduleWord e.w t) := by
  unfold Engine.round; simp only; split <;> rfl
@[simp] theorem Engine.round_dg : (e.round t).dg = e.dg := by unfold Engine.round; simp only; split <;> rfl
@[simp] theorem Engine.round_ph : (e.round t).ph = if t.toNat < 63 then e.ph else .final := by
  unfold Engine.round; simp only; split <;> rfl
@[simp] theorem Engine.round_t : (e.round t).t = if t.toNat < 63 then t + 1#6 else 0#6 := by
  unfold Engine.round; simp only; split <;> rfl

@[simp] theorem Engine.finalize_ib : e.finalize.ib = e.ib := rfl
@[simp] theorem Engine.finalize_len : e.finalize.len = e.len := rfl
@[simp] theorem Engine.finalize_w : e.finalize.w = e.w := rfl
@[simp] theorem Engine.finalize_r : e.finalize.r = e.r := rfl
@[simp] theorem Engine.finalize_dg : e.finalize.dg = writeDigest e.dg e.r := rfl
@[simp] theorem Engine.finalize_ph : e.finalize.ph = .done := rfl
@[simp] theorem Engine.finalize_t : e.finalize.t = 0#6 := rfl

end

/-- Two engines are equal when their seven items are (R20). -/
theorem Engine.ext_items {e e' : Engine} (h1 : e.ib = e'.ib) (h2 : e.len = e'.len) (h3 : e.w = e'.w) (h4 : e.r = e'.r)
    (h5 : e.dg = e'.dg) (h6 : e.ph = e'.ph) (h7 : e.t = e'.t) : e = e' := by
  cases e; cases e'; simp_all

/-- Two states are equal when their four fields are. -/
theorem State.ext_fields {s s' : State} (h1 : s.engine = s'.engine) (h2 : s.inputs = s'.inputs) (h3 : s.resps = s'.resps)
    (h4 : s.powerUps = s'.powerUps) : s = s' := by
  cases s; cases s'; simp_all

end Sys2Proof.Machine
end

