-- ==== Sys2Proof/Laws/Exec.lean ====
section
/-! SUPPORT. What a step can do, said once: one lemma per kind of event, one per phase of the engine's turn, and the laws of
running several steps. -/

namespace Sys2Proof.Machine

/-- What an operation answers: a next state that differs in the engine and by at most one response, or, for `EXW` below
index 16 alone, a refusal. -/
theorem exec_cases (i : Instr) (s : State) :
    (∃ e, exec i s = .next (s.withEngine e)) ∨ (∃ e b, exec i s = .next (s.respond e b)) ∨
    ((∃ t : BitVec 6, i = .exw t ∧ t.toNat < 16) ∧ exec i s = .refused .indexOutsideRange) := by
  cases i with
  | nop => exact .inr (.inl ⟨_, _, rfl⟩)
  | push b => exact .inr (.inl ⟨_, _, rfl⟩)
  | start => exact .inr (.inl ⟨_, _, rfl⟩)
  | clr => exact .inr (.inl ⟨_, _, rfl⟩)
  | rds => exact .inr (.inl ⟨_, _, rfl⟩)
  | rdd k => exact .inr (.inl ⟨_, _, rfl⟩)
  | chk => exact .inl ⟨_, rfl⟩
  | ldw t => exact .inl ⟨_, rfl⟩
  | init => exact .inl ⟨_, rfl⟩
  | rnd t => exact .inl ⟨_, rfl⟩
  | fin => exact .inl ⟨_, rfl⟩
  | exw t =>
    by_cases h : 16 ≤ t.toNat
    · exact .inl ⟨_, by rw [exec, execExw, dif_pos h]⟩
    · exact .inr (.inr ⟨⟨t, rfl, by omega⟩, by rw [exec, execExw, dif_neg h]⟩)

/-- No operation touches the events that wait or the count of power-ons. -/
theorem exec_keeps_host {i : Instr} {s t : State} (h : exec i s = .next t) : t.inputs = s.inputs ∧ t.powerUps = s.powerUps := by
  rcases exec_cases i s with ⟨e, h'⟩ | ⟨e, b, h'⟩ | ⟨-, h'⟩ <;> rw [h'] at h <;> cases h <;> exact ⟨rfl, rfl⟩

/-- A command answers a next state: an engine and one response (R64). -/
theorem exec_command (w : BitVec 11) (s : State) : ∃ e b, exec (decodeCommand w) s = .next (s.respond e b) := by
  rcases decodeCommand_cases w with h | ⟨b, h⟩ | h | h | h | ⟨k, h⟩ <;> rw [h] <;> exact ⟨_, _, rfl⟩

theorem step_nil {s : State} (h : s.inputs = []) : step s = engineTurn s := by rw [step, h]

theorem step_cons {s : State} {x : Input} {rest : List Input} (h : s.inputs = x :: rest) :
    step s = takeInput x { s with inputs := rest } := by rw [step, h]

theorem engineTurn_eq (s : State) : engineTurn s =
    match selectMicroOp s.engine.ph s.engine.t with
    | .ok i => exec i s
    | .error .waiting => .next s
    | .error .unreachable => .fault .stuckSequencer := by
  unfold engineTurn Engine.seq
  exact congrArg (fun x : Except NoMicroOp Instr => match x with
    | .ok i => exec i s
    | .error .waiting => (.next s : Host.Outcome State Fault Refusal)
    | .error .unreachable => .fault .stuckSequencer) (decodeSequencer_sequencerWord s.engine.ph s.engine.t)

/-- The engine's turn in a waiting phase changes nothing (R125). -/
theorem engineTurn_waiting {s : State} (h : s.engine.ph = .idle ∨ s.engine.ph = .done ∨ s.engine.ph = .error)
    (ht : s.engine.t = 0#6) : engineTurn s = .next s := by
  rw [engineTurn_eq, ht]
  rcases h with h | h | h <;> rw [h] <;> rfl

theorem engineTurn_check {s : State} (h : s.engine.ph = .check) (ht : s.engine.t = 0#6) : engineTurn s = execChk s := by
  rw [engineTurn_eq, ht, h]; rfl

theorem engineTurn_ldw {s : State} (h : s.engine.ph = .sched) (ht : s.engine.t.toNat < 16) :
    engineTurn s = execLdw (s.engine.t.extractLsb' 0 4) s := by
  rw [engineTurn_eq, h]; simp only [selectMicroOp, if_pos ht, exec]

theorem engineTurn_exw {s : State} (h : s.engine.ph = .sched) (ht : 16 ≤ s.engine.t.toNat) :
    engineTurn s = .next (s.withEngine (s.engine.expand s.engine.t ht)) := by
  rw [engineTurn_eq, h]; simp only [selectMicroOp, if_neg (Nat.not_lt.mpr ht), exec, execExw, dif_pos ht]

theorem engineTurn_init {s : State} (h : s.engine.ph = .init) (ht : s.engine.t = 0#6) : engineTurn s = execInit s := by
  rw [engineTurn_eq, ht, h]; rfl

theorem engineTurn_round {s : State} (h : s.engine.ph = .round) : engineTurn s = execRnd s.engine.t s := by
  rw [engineTurn_eq, h]; rfl

theorem engineTurn_final {s : State} (h : s.engine.ph = .final) (ht : s.engine.t = 0#6) : engineTurn s = execFin s := by
  rw [engineTurn_eq, ht, h]; rfl

/-- Running one step more: first the one step, then the rest. -/
theorem runSteps_succ (n : Nat) (s : State) : runSteps (n + 1) s =
    match step s with
    | .next t => runSteps n t
    | .fault r => .fault r
    | .refused r => .refused r := rfl

@[simp] theorem runSteps_zero (s : State) : runSteps 0 s = .next s := rfl

theorem runSteps_succ_of_step {s t : State} (h : step s = .next t) (n : Nat) : runSteps (n + 1) s = runSteps n t := by
  rw [runSteps_succ, h]

/-- Running in two parts. -/
theorem runSteps_add {m n : Nat} {s t : State} (h : runSteps m s = .next t) : runSteps (m + n) s = runSteps n t := by
  induction m generalizing s with
  | zero => rw [runSteps_zero] at h; cases h; rw [Nat.zero_add]
  | succ m ih =>
    rw [runSteps_succ] at h
    rw [Nat.add_right_comm, runSteps_succ]
    cases hs : step s with
    | next u => rw [hs] at h; exact ih h
    | fault r => rw [hs] at h; cases h
    | refused r => rw [hs] at h; cases h

/-- A run of the host's interface, one step more: if the step answers next, the rest of the run. -/
theorem core_run_succ (M : Host.Core) (n : Nat) (s : M.State) :
    (∀ t, M.step s = .next t → M.run (n + 1) s = M.run n t) ∧ (∀ r, M.step s = .fault r → M.run (n + 1) s = .fault r) ∧
    (∀ r, M.step s = .refused r → M.run (n + 1) s = .refused r) := by
  refine ⟨fun t h => ?_, fun r h => ?_, fun r h => ?_⟩ <;> rw [Host.Core.run, h]

/-- `runSteps` is the run of the host's interface. -/
theorem runSteps_eq_core_run (n : Nat) (s : State) : Host.Core.run Sys2Proof.core n s = runSteps n s := by
  induction n generalizing s with
  | zero => rfl
  | succ n ih =>
    obtain ⟨hn, hf, hr⟩ := core_run_succ Sys2Proof.core n s
    cases hs : step s with
    | next t => exact (hn t hs).trans ((ih t).trans (runSteps_succ_of_step hs n).symm)
    | fault r => exact (hf r hs).trans (show runSteps (n + 1) s = .fault r by rw [runSteps_succ, hs]).symm
    | refused r => exact (hr r hs).trans (show runSteps (n + 1) s = .refused r by rw [runSteps_succ, hs]).symm

end Sys2Proof.Machine
end

