-- ==== Sys2Proof/Laws/Ops.lean ====
section
/-! SUPPORT. Laws of the memory primitives (00_scope.md R14) and of what is built on them. -/

namespace Sys2Proof.Machine

/-- Read after write of one byte. -/
theorem memWrite1_getElem {n : Nat} (S : Vector Byte n) (a : Nat) (v : Byte) (h : a < n) (i : Nat) (hi : i < n) :
    (memWrite1 S a v h)[i] = if a = i then v else S[i] := by
  simp only [memWrite1, Vector.getElem_set]

/-- Read after write of four bytes: the four stored bytes are `BYTES32(x)`, every other byte is as before. -/
theorem memWrite4_getElem {n : Nat} (S : Vector Byte n) (a : Nat) (x : Word) (h : a + 3 < n) (i : Nat) (hi : i < n) :
    (memWrite4 S a x h)[i] = if hj : a ≤ i ∧ i < a + 4 then (bytes32 x)[i - a]'(by omega) else S[i] := by
  simp only [memWrite4, Vector.getElem_set]
  by_cases hj : a ≤ i ∧ i < a + 4
  · obtain ⟨j, rfl⟩ : ∃ j, i = a + j := ⟨i - a, by omega⟩
    have : j = 0 ∨ j = 1 ∨ j = 2 ∨ j = 3 := by omega
    rcases this with rfl | rfl | rfl | rfl <;> simp
  · rw [dif_neg hj]
    rw [if_neg (by omega), if_neg (by omega), if_neg (by omega), if_neg (by omega)]

/-- What the loop of `FIN` has written after `n` words: the groups below `n`, nothing above. -/
theorem writeFinals_getElem (dg : Vector Byte 32) (r : Vector Word 8) (n : Nat) (hn : n ≤ 8) (i : Nat) (hi : i < 32) :
    (writeFinals dg r n hn)[i] = if i < 4 * n then (digestGroup r (i / 4) (by omega))[i % 4]'(by omega) else dg[i] := by
  induction n with
  | zero => simp [writeFinals]
  | succ n ih =>
    simp only [writeFinals, memWrite4_getElem, ih (by omega)]
    by_cases h1 : 4 * n ≤ i ∧ i < 4 * n + 4
    · have hq : i / 4 = n := by omega
      have hm : i - 4 * n = i % 4 := by omega
      rw [dif_pos h1, if_pos (show i < 4 * (n + 1) by omega)]
      simp only [hm, digestGroup, hq, finalWord]
    · rw [dif_neg h1]
      by_cases h2 : i < 4 * n
      · rw [if_pos h2, if_pos (by omega)]
      · rw [if_neg h2, if_neg (by omega)]

/-- What `FIN` has written: byte `i` is byte `i % 4` of the group `i / 4`, whatever `DG` held before. -/
theorem writeDigest_getElem (dg : Vector Byte 32) (r : Vector Word 8) (i : Nat) (hi : i < 32) :
    (writeDigest dg r)[i] = (digestGroup r (i / 4) (by omega))[i % 4]'(by omega) := by
  unfold writeDigest
  rw [writeFinals_getElem, if_pos (by omega)]

/-- Byte `i` of `DIGEST(r)` is byte `i % 4` of the group `i / 4`. -/
theorem digest_getElem (r : Vector Word 8) (i : Nat) (hi : i < 32) :
    (digest r)[i] = (digestGroup r (i / 4) (by omega))[i % 4]'(by omega) := by
  have key : ∀ {m k : Nat} (x : Vector Byte m) (y : Vector Byte k) (j : Nat) (h : j < m + k),
      (x.append y)[j] = if h' : j < m then x[j] else y[j - m]'(by omega) := fun _ _ _ h => Vector.getElem_append h
  have leaf : ∀ (k j : Nat) (hk : k < 8) (hj : j < 4), 4 * k + j = i →
      (digestGroup r k hk)[j] = (digestGroup r (i / 4) (by omega))[i % 4]'(by omega) := by
    intro k j hk hj h
    have h1 : k = i / 4 := by omega
    have h2 : j = i % 4 := by omega
    subst h1 h2; rfl
  simp only [digest, key]
  split_ifs <;> exact leaf _ _ _ _ (by omega)

end Sys2Proof.Machine
end

