-- ==== Sys2Proof/Laws/PerInstr.lean ====
section
/-! SUPPORT. The family `RowMatch`, one lemma per operation: the word of every well-formed operation is in the space of its
row of the opcode table, matches that row, and has that row as the first it matches (30_encoding.md R72). -/

namespace Sys2Proof.Laws.RowMatch

/-- The word of a well-formed operation is in its row's space and selects that row first. -/
def Statement (i : Instr) : Prop :=
  i.WellFormed → (encode i).space = i.space ∧ (firstRow (encode i)).map OpcodeRow.mnemonic = some i.mnemonic

theorem nop : Statement .nop := fun _ => ⟨rfl, by decide⟩

theorem push (b : Byte) : Statement (.push b) := fun _ => ⟨rfl, by revert b; decide +kernel⟩

theorem start : Statement .start := fun _ => ⟨rfl, by decide⟩

theorem clr : Statement .clr := fun _ => ⟨rfl, by decide⟩

theorem rds : Statement .rds := fun _ => ⟨rfl, by decide⟩

theorem rdd (k : BitVec 5) : Statement (.rdd k) := fun _ => ⟨rfl, by revert k; decide +kernel⟩

theorem chk : Statement .chk := fun _ => ⟨rfl, by decide⟩

theorem ldw (t : BitVec 4) : Statement (.ldw t) := fun _ => ⟨rfl, by revert t; decide +kernel⟩

theorem exw (t : BitVec 6) : Statement (.exw t) := fun h => ⟨rfl, by revert t; decide +kernel⟩

theorem init : Statement .init := fun _ => ⟨rfl, by decide⟩

theorem rnd (t : BitVec 6) : Statement (.rnd t) := fun _ => ⟨rfl, by revert t; decide +kernel⟩

theorem fin : Statement .fin := fun _ => ⟨rfl, by decide⟩

end Sys2Proof.Laws.RowMatch
end

