-- ==== Sys2Proof/Laws/Transform.lean ====
section
/-! SUPPORT. Laws of the schedule as it grows word by word (41_schedule.md R90). -/

namespace Sys2Proof.Machine

/-- The word `EXW t` computes depends on the schedule words below `t` alone (R89, corner case a). -/
theorem expandWord_congr {w w' : Vector Word 64} {t : Nat} (lo : 16 ≤ t) (hi : t < 64)
    (h : ∀ i, (hi' : i < 64) → i < t → w[i] = w'[i]) : expandWord w t lo hi = expandWord w' t lo hi := by
  simp only [expandWord]
  rw [h (t - 16) (by omega) (by omega), h (t - 15) (by omega) (by omega), h (t - 7) (by omega) (by omega),
    h (t - 2) (by omega) (by omega)]

/-- The next schedule word depends on the block and on the words below it alone. -/
theorem scheduleNext_congr {B : Vector Byte 64} {w w' : Vector Word 64} {t : Nat} (hi : t < 64)
    (h : ∀ i, (hi' : i < 64) → i < t → w[i] = w'[i]) : scheduleNext B w t hi = scheduleNext B w' t hi := by
  simp only [scheduleNext]
  split
  · rfl
  · exact expandWord_congr _ hi h

theorem scheduleUpTo_succ (B : Vector Byte 64) (n : Nat) (hn : n < 64) :
    scheduleUpTo B (n + 1) = (scheduleUpTo B n).set n (scheduleNext B (scheduleUpTo B n) n hn) := by
  rw [scheduleUpTo, scheduleExtend, dif_pos hn]

/-- A later word leaves the earlier ones as they are. -/
theorem scheduleUpTo_prefix (B : Vector Byte 64) {n : Nat} (k : Nat) (h : n + k ≤ 64) {i : Nat} (hi : i < n) :
    (scheduleUpTo B (n + k))[i] = (scheduleUpTo B n)[i] := by
  induction k with
  | zero => rfl
  | succ k ih =>
    have e : scheduleUpTo B (n + (k + 1)) = _ := scheduleUpTo_succ B (n + k) (by omega)
    simp only [e, Vector.getElem_set]
    rw [if_neg (by omega), ih (by omega)]

/-- After the first `n` words: those of the whole schedule below `n`, zeros from `n` on. -/
theorem scheduleUpTo_getElem (B : Vector Byte 64) {n : Nat} (hn : n ≤ 64) (i : Nat) (hi : i < 64) :
    (scheduleUpTo B n)[i] = if i < n then (schedule B)[i] else 0#32 := by
  split
  · next h =>
    have e : n + (64 - n) = 64 := by omega
    have := scheduleUpTo_prefix B (n := n) (64 - n) (by omega) h
    simp only [e] at this
    rw [← this, schedule]
  · next h =>
    induction n with
    | zero => simp [scheduleUpTo]
    | succ n ih => rw [scheduleUpTo_succ B n (by omega)]; simp only [Vector.getElem_set]; rw [if_neg (by omega), ih (by omega) (by omega)]

theorem roundsUpTo_succ (w : Vector Word 64) (n : Nat) (hn : n < 64) :
    roundsUpTo w (n + 1) = roundStep (roundsUpTo w n) romK[n] w[n] := by
  rw [roundsUpTo, roundsExtend, dif_pos hn]

end Sys2Proof.Machine
end

