-- ==== Sys2Proof/Tests/Slice0.lean ====
section
/-! SUPPORT. Tests of the model, with expected results from spec/95_test_vectors.md and the worked examples of the rules;
and for every obligation that has hypotheses a concrete state and operands that meet them. -/

namespace Sys2Proof.Tests

open Sys2Proof.Machine

/-- The engine in a phase, at an index, with a length, and all else as at reset. -/
def engineAt (ph : Phase) (t : BitVec 6) (len : BitVec 7) : Engine := { Engine.reset with ph := ph, t := t, len := len }

/-- A machine with such an engine and the events that wait. -/
def stateAt (ph : Phase) (t : BitVec 6) (len : BitVec 7) (xs : List Input) : State :=
  { State.reset with engine := engineAt ph t len, inputs := xs }

/-- The next state of an outcome. -/
def nextState : Host.Outcome State Fault Refusal → Option State
  | .next s => some s
  | .fault _ => none
  | .refused _ => none

/-- What a test looks at after one operation. -/
def look {α : Type} (i : Instr) (s : State) (f : State → α) : Option α := (nextState (exec i s)).map f

/-- The block `ASC` of 95_test_vectors.md: byte `i` has value `i`. -/
def blockAsc : Vector Byte 64 := Vector.ofFn fun i : Fin 64 => BitVec.ofNat 8 i.val

/-- The block `ONES`. -/
def blockOnes : Vector Byte 64 := Vector.replicate 64 0xFF#8

/-- The block `ZERO`. -/
def blockZero : Vector Byte 64 := Vector.replicate 64 0x00#8

/-! ## Well-formedness -/

/-- The one check of `Instr.wellFormed`: an index below 16 is refused, 16 and 63 pass. -/
theorem test_wellFormed_exw_lower_bound :
    (Instr.exw 15#6).wellFormed = false ∧ (Instr.exw 0#6).wellFormed = false ∧ (Instr.exw 16#6).wellFormed = true ∧
    (Instr.exw 63#6).wellFormed = true := by decide

/-! ## Decoding: words written bit by bit from 30_encoding.md, and the table T11 -/

/-- `op data` of R61, R62. -/
theorem test_decode_commands :
    decode (.cmd 0b00000000000#11) = .ok .nop ∧ decode (.cmd 0b00100000000#11) = .ok (.push 0x00#8) ∧
    decode (.cmd 0b00111111111#11) = .ok (.push 0xFF#8) ∧ decode (.cmd 0b01000000000#11) = .ok .start ∧
    decode (.cmd 0b01100000000#11) = .ok .clr ∧ decode (.cmd 0b10000000000#11) = .ok .rds ∧
    decode (.cmd 0b10100000000#11) = .ok (.rdd 0#5) ∧ decode (.cmd 0b10100011111#11) = .ok (.rdd 31#5) := by decide

/-- T11, the words with ignored bits set and the reserved ones. -/
theorem test_decode_ignored_bits :
    decode (.cmd 0x0FF#11) = .ok .nop ∧ decode (.cmd 0x2A5#11) = .ok .start ∧ decode (.cmd 0x4FF#11) = .ok .rds ∧
    decode (.cmd 0x53F#11) = .ok (.rdd 31#5) ∧ decode (.cmd 0x5E0#11) = .ok (.rdd 0#5) ∧ decode (.cmd 0x600#11) = .ok .nop ∧
    decode (.cmd 0x6FF#11) = .ok .nop ∧ decode (.cmd 0x700#11) = .ok .nop ∧ decode (.cmd 0x7FF#11) = .ok .nop := by decide

/-- `PH T` of R65, R66. -/
theorem test_decode_micro_operations :
    decode (.seq 0b001000000#9) = .ok .chk ∧ decode (.seq 0b010000000#9) = .ok (.ldw 0#4) ∧
    decode (.seq 0b010001111#9) = .ok (.ldw 15#4) ∧ decode (.seq 0b010010000#9) = .ok (.exw 16#6) ∧
    decode (.seq 0b010111111#9) = .ok (.exw 63#6) ∧ decode (.seq 0b011000000#9) = .ok .init ∧
    decode (.seq 0b100000000#9) = .ok (.rnd 0#6) ∧ decode (.seq 0b100111111#9) = .ok (.rnd 63#6) ∧
    decode (.seq 0b101000000#9) = .ok .fin := by decide

/-- T11, the sequencer words that select nothing. -/
theorem test_decode_no_micro_operation :
    decode (.seq 0x000#9) = .error .waiting ∧ decode (.seq 0x180#9) = .error .waiting ∧ decode (.seq 0x1C0#9) = .error .waiting ∧
    decode (.seq 0x001#9) = .error .unreachable ∧ decode (.seq 0x041#9) = .error .unreachable ∧
    decode (.seq 0x0C1#9) = .error .unreachable ∧ decode (.seq 0x17F#9) = .error .unreachable ∧
    decode (.seq 0x1BF#9) = .error .unreachable ∧ decode (.seq 0x1FF#9) = .error .unreachable := by decide

/-- Words with the widths of both spaces, and in whole bytes, where a word of either space is meant. -/
theorem test_decodeTableWord :
    decodeTableWord 11 0x1AB = some (.push 0xAB#8) ∧ decodeTableWord 9 0x140 = some .fin ∧
    decodeTableWord 16 0x51F = some (.rdd 31#5) ∧ decodeTableWord 16 0x090 = some (.exw 16#6) ∧
    decodeTableWord 9 0x1C0 = none ∧ decodeTableWord 11 0x800 = none := by decide

/-! ## The word primitives and the mixing functions: table T1 -/

theorem test_primitives :
    add32 0xFFFFFFFF#32 0x00000001#32 = 0x00000000#32 ∧ rotr 0x00000001#32 1 = 0x80000000#32 ∧
    rotr 0x12345678#32 25 = 0x1A2B3C09#32 ∧ shr 0x80000001#32 3 = 0x10000000#32 ∧ shr 0x12345678#32 10 = 0x00048D15#32 ∧
    be32 0x12#8 0x34#8 0x56#8 0x78#8 = 0x12345678#32 ∧ bytes32 0xFC99A2DF#32 = #v[0xFC#8, 0x99#8, 0xA2#8, 0xDF#8] := by decide

theorem test_mixing_functions :
    ssig0 0x12345678#32 = 0xE7FCE6EE#32 ∧ ssig1 0x12345678#32 = 0xA1F78649#32 ∧ bsig0 0x12345678#32 = 0x66146474#32 ∧
    bsig1 0x12345678#32 = 0x3561ABDA#32 ∧ ssig0 0xFFFFFFFF#32 = 0x1FFFFFFF#32 ∧ ssig1 0xFFFFFFFF#32 = 0x003FFFFF#32 ∧
    ch 0xF0F0F0F0#32 0xCCCCCCCC#32 0xAAAAAAAA#32 = 0xCACACACA#32 ∧
    maj 0xF0F0F0F0#32 0xCCCCCCCC#32 0xAAAAAAAA#32 = 0xE8E8E8E8#32 := by decide

/-! ## The three known-answer vectors V1, V2, V3 of the source, of the function of the block -/

/-- V1, with the last byte that the rules give (90_conflicts.md C1, D26). -/
theorem test_compress_zero : (compress blockZero).toList.map BitVec.toNat =
    [218, 86, 152, 190, 23, 185, 180, 105, 98, 51, 87, 153, 119, 159, 190, 202, 140, 229, 212, 145, 192, 210, 98, 67, 186, 254,
     249, 234, 24, 55, 169, 216] := by decide +kernel

theorem test_compress_asc : (compress blockAsc).toList.map BitVec.toNat =
    [252, 153, 162, 223, 136, 244, 42, 122, 123, 185, 209, 128, 51, 205, 198, 162, 2, 86, 117, 95, 157, 91, 154, 80, 68, 169,
     204, 49, 90, 190, 132, 167] := by decide +kernel

theorem test_compress_ones : (compress blockOnes).toList.map BitVec.toNat =
    [239, 12, 116, 141, 244, 218, 80, 168, 214, 196, 60, 1, 62, 220, 60, 231, 108, 157, 159, 169, 161, 69, 138, 222, 86, 235,
     134, 192, 166, 68, 146, 210] := by decide +kernel

/-- T2: four words of the schedule of `ASC`. -/
theorem test_schedule_asc : (schedule blockAsc)[15] = 0x3C3D3E3F#32 ∧ (schedule blockAsc)[16] = 0x2D84894C#32 ∧
    (schedule blockAsc)[40] = 0x3DBB53EE#32 ∧ (schedule blockAsc)[63] = 0x24A97715#32 := by decide +kernel

/-- T4: two registers after 32 rounds of `ASC`, and after all. -/
theorem test_rounds_asc : (roundsUpTo (schedule blockAsc) 32)[0] = 0xFCD5C14C#32 ∧ (rounds (schedule blockAsc))[0] = 0x928FBC78#32 ∧
    (rounds (schedule blockAsc))[4] = 0xB14822E0#32 := by decide +kernel

/-! ## One step of each operation -/

/-- R117: `NOP` in `ROUND` with `T = 17`. -/
theorem test_nop_in_round : look .nop (stateAt .round 17#6 64#7 []) (fun s => (s.engine.ph, s.engine.t, s.resps)) =
    some (.round, 17#6, [0x00#8]) := by decide

/-- T8: the last byte that is stored, and the one that only counts. -/
theorem test_push_63 : look (.push 0xFF#8) (stateAt .idle 0#6 63#7 []) (fun s => (s.engine.ib[63], s.engine.ib[62], s.engine.len)) =
    some (0xFF#8, 0x00#8, 64#7) := by decide

theorem test_push_saturates :
    look (.push 0x55#8) (stateAt .idle 0#6 64#7 []) (fun s => (s.engine.len, s.engine.ib == blockZero, s.resps)) =
      some (65#7, true, [0x00#8]) ∧
    look (.push 0x55#8) (stateAt .idle 0#6 65#7 []) (fun s => (s.engine.len, s.engine.ib == blockZero)) = some (65#7, true) := by
  decide +kernel

/-- R119: with `LEN = 64`, `START` gives `PH = CHECK`, `STATUS = 0x02`. -/
theorem test_start : look .start (stateAt .idle 0#6 64#7 []) (fun s => (s.engine.ph, s.engine.status)) = some (.check, 0x02#8) := by
  decide

/-- T10: a `START` in `DONE` does not run the transform again. -/
theorem test_start_ignored : look .start (stateAt .done 0#6 64#7 []) (fun s => (s.engine.ph, s.resps)) = some (.done, [0x00#8]) := by
  decide

/-- R120: in `ERROR` with `LEN = 63`. -/
theorem test_clr_from_error : look .clr (stateAt .error 0#6 63#7 []) (fun s => (s.engine == Engine.reset, s.engine.status)) =
    some (true, 0x01#8) := by decide +kernel

/-- T10: `CLR` while busy does nothing. -/
theorem test_clr_ignored : look .clr (stateAt .round 17#6 64#7 []) (fun s => (s.engine.ph, s.engine.t, s.engine.len)) =
    some (.round, 17#6, 64#7) := by decide

/-- R121, R26: the four values of `STATUS`. -/
theorem test_rds : [Phase.idle, .final, .done, .error].map (fun p => look .rds (stateAt p 0#6 64#7 []) State.resps) =
    [some [0x01#8], some [0x02#8], some [0x04#8], some [0x18#8]] := by decide

/-- R122: byte `k` of `DG`. -/
theorem test_rdd : look (.rdd 31#5) { State.reset with engine := { Engine.reset with ph := .done, dg := compress blockZero } }
    State.resps = some [0xD8#8] := by decide +kernel

/-- T9: the four lengths. -/
theorem test_chk : [0#7, 63#7, 64#7, 65#7].map (fun n => look .chk (stateAt .check 0#6 n []) (fun s => s.engine.seq)) =
    [some 0x1C0#9, some 0x1C0#9, some 0x080#9, some 0x1C0#9] := by decide

/-- T2: `LDW 15` of `ASC` writes `W[15] = 3C3D3E3F`; `SEQ` goes to 0x090. -/
theorem test_ldw_15 : look (.ldw 15#4) { State.reset with engine := { engineAt .sched 15#6 64#7 with ib := blockAsc } }
    (fun s => (s.engine.w[15], s.engine.w[14], s.engine.seq)) = some (0x3C3D3E3F#32, 0x00000000#32, 0x090#9) := by decide +kernel

/-- T2: `EXW 16` of `ASC`: one carry dropped. -/
theorem test_exw_16 :
    look (.exw 16#6) { State.reset with engine := { engineAt .sched 16#6 64#7 with w := scheduleUpTo blockAsc 16 } }
    (fun s => (s.engine.w[16], s.engine.w[17], s.engine.seq)) = some (0x2D84894C#32, 0x00000000#32, 0x091#9) := by decide +kernel

/-- T2: `EXW 63` of `ASC` is the last step of the phase; `SEQ` goes to 0x0C0. -/
theorem test_exw_63 :
    look (.exw 63#6) { State.reset with engine := { engineAt .sched 63#6 64#7 with w := scheduleUpTo blockAsc 63 } }
    (fun s => (s.engine.w[63], s.engine.seq)) = some (0x24A97715#32, 0x0C0#9) := by decide +kernel

/-- R96: `a` and `h` after `INIT`. -/
theorem test_init : look .init (stateAt .init 0#6 64#7 []) (fun s => (s.engine.r[0], s.engine.r[7], s.engine.seq)) =
    some (0x6A09E667#32, 0x5BE0CD19#32, 0x100#9) := by decide

/-- R103, T6: round 0 with `W[0] = 0x00010203`. -/
theorem test_rnd_0 :
    look (.rnd 0#6) { State.reset with engine := { engineAt .round 0#6 64#7 with r := romH, w := scheduleUpTo blockAsc 1 } }
    (fun s => (s.engine.r, s.engine.seq)) =
    some (#v[0xFC098A50#32, 0x6A09E667#32, 0xBB67AE85#32, 0x3C6EF372#32, 0x98C8E4A5#32, 0x510E527F#32, 0x9B05688C#32, 0x1F83D9AB#32],
      0x101#9) := by decide +kernel

/-- T4: round 63 of `ASC` hands over to `FINAL`. -/
theorem test_rnd_63 :
    look (.rnd 63#6) { State.reset with engine := { engineAt .round 63#6 64#7 with
      r := #v[0xCD8C7BF5#32, 0x3F4ADE0E#32, 0x8E7DD168#32, 0x4B27E77C#32, 0x025631C4#32, 0x2525F286#32, 0xFEDDB78E#32, 0x7AE5A4CF#32],
      w := (Vector.replicate 64 0#32).set 63 0x24A97715#32 } }
    (fun s => (s.engine.r[0], s.engine.r[4], s.engine.r[7], s.engine.seq)) =
    some (0x928FBC78#32, 0xB14822E0#32, 0xFEDDB78E#32, 0x140#9) := by decide +kernel

/-- T7, fourth row: `FIN` adds `H`, big-endian. -/
theorem test_fin : look .fin (stateAt .final 0#6 64#7 [])
    (fun s => (s.engine.dg[0], s.engine.dg[3], s.engine.dg[28], s.engine.dg[31], s.engine.seq)) =
    some (0x6A#8, 0x67#8, 0x5B#8, 0x19#8, 0x180#9) := by decide +kernel

/-- R68: the engine is stuck at an unreachable word, and `RST` is the way out. -/
theorem test_unreachable_word : step (stateAt .final 5#6 64#7 []) = .fault .stuckSequencer ∧
    (nextState (step (stateAt .final 5#6 64#7 [.rst]))).map State.engine = some Engine.reset := ⟨rfl, by decide +kernel⟩

/-- R70: lines of the assembler, in both number bases, with a comment; a reserved opcode has no spelling. -/
theorem test_assembler :
    assembleLine ['P', 'U', 'S', 'H', ' ', '0', 'x', 'd', 'A', ' ', ';', 'x'] = .ok [.cmd 0x1DA#11] ∧
    assembleLine ['R', 'D', 'D', ' ', '3', '1'] = .ok [.cmd 0x51F#11] ∧
    assembleLine ['R', 'D', 'D', ' ', '3', '2'] = .error .operandOutOfRange ∧ assembleLine ['R', 'S', 'T'] = .ok [.rst] ∧
    assembleLine ['R', 'S', 'V'] = .error .unknownMnemonic := by decide +kernel

/-- The host's question: a word placed in the reset state is what the very next step runs. -/
theorem test_withFetchWord : (nextState (step (State.reset.withFetchWord 16 0x200))).map (fun s => s.engine.ph) = some .check ∧
    (nextState (step (State.reset.withFetchWord 16 0x0C0))).map (fun s => s.engine.r[0]) = some 0x6A09E667#32 := by decide +kernel

/-! ## Witnesses: for each obligation with hypotheses, states and operands that meet them, clause by clause -/

/-- A machine in a phase with its whole computation done: the state in which a transform of `ASC` stops. -/
def doneAsc : State := { State.reset with engine := Engine.stopped blockAsc.toList }

/-- An engine that has just accepted a `START` after two bytes, `0x07` and another one. -/
def twoBytes (b : Byte) : Engine := { engineAt .check 0#6 2#7 with ib := (blockZero.set 0 0x07#8).set 1 b }

/-- An engine at the start of `SCHED`, 64 bytes of `ASC` accepted, with any contents of `R`. -/
def acceptedAsc (r : Vector Word 8) : Engine := { engineAt .sched 0#6 64#7 with ib := blockAsc, r := r }

/-- An engine of `acceptedAsc` is sound: the invariant says nothing of `R` before `INIT`. -/
theorem acceptedAsc_sound (r : Vector Word 8) : (acceptedAsc r).Sound where
  i1 h := absurd rfl h
  i2 := by show (64#7).toNat ≤ 65; decide
  i3 _ := rfl
  i4 _ k h := by show (Vector.replicate 32 0#8)[k] = 0#8; simp
  i5 i h h' := by
    have h64 : 64 ≤ i := h'
    omega
  i6 h := by rcases h with h | h | h <;> cases h
  i7 h := by cases h
  i8 _ t h := by show (Vector.replicate 64 0#32)[t] = if t < 0 then _ else 0#32; simp
  i9 h := by cases h
  full h := by rcases h with h | h | h | h <;> cases h
  mixing h := by cases h
  mixed h := by rcases h with h | h <;> cases h

/-- An engine of `twoBytes` is sound: nothing has been computed. -/
theorem twoBytes_sound (b : Byte) : (twoBytes b).Sound where
  i1 _ _ := rfl
  i2 := by show (2#7).toNat ≤ 65; decide
  i3 h := by rcases h with h | h | h | h | h <;> cases h
  i4 _ k h := by show (Vector.replicate 32 0#8)[k] = 0#8; simp
  i5 i h h' := by
    have h2 : 2 ≤ i := h'
    show ((blockZero.set 0 0x07#8).set 1 b)[i] = 0#8
    rw [Vector.getElem_set_ne _ _ (by omega), Vector.getElem_set_ne _ _ (by omega)]
    simp [blockZero]
  i6 _ := ⟨fun t h => by show (Vector.replicate 64 0#32)[t] = 0#32; simp, fun k h => by show (Vector.replicate 8 0#32)[k] = 0#32; simp⟩
  i7 h := by cases h
  i8 h := by cases h
  i9 h := by cases h
  full h := by rcases h with h | h | h | h <;> cases h
  mixing h := by cases h
  mixed h := by rcases h with h | h <;> cases h

theorem witness_ResetLeavesZeroAndIdle :
    (stateAt .round 63#6 64#7 [.rst, .turn]).inputs = .rst :: [.turn] ∧ (stateAt .idle 0#6 65#7 []).engine.ph = .idle ∧
    (stateAt .done 0#6 64#7 []).engine.ph = .done ∧ (stateAt .error 0#6 0#7 []).engine.ph = .error := by decide

theorem witness_RstPulseResetsAnyEngine : (stateAt .init 63#6 127#7 [.rst]).inputs = .rst :: [] := by decide

theorem witness_RstAfterPowerUpGivesTheResetState :
    (stateAt .done 0#6 64#7 [.power, .rst, .turn]).inputs = .power :: .rst :: [.turn] := by decide

theorem witness_RotateAndShiftMoveBits : (1 ≤ 1 ∧ 1 ≤ 31 ∧ 0 ≤ 31 ∧ 0 + 1 ≤ 31) ∧ (1 ≤ 31 ∧ 31 ≤ 31 ∧ 31 ≤ 31 ∧ ¬ 31 + 31 ≤ 31) := by
  decide

theorem witness_BigEndianPacking : 0 < 4 ∧ 3 < 4 := by decide

theorem witness_ChooseAndMajorityBits : 0 ≤ 31 ∧ 31 ≤ 31 := by decide

/-- The first and the last of the primes that are spoken of. -/
theorem witness_ConstantsComeFromThePrimes : Nat.Prime 2 ∧ Nat.Prime 311 := by norm_num

/-- The last byte and the last word of `IB` and of `DG`, with bytes outside each. -/
theorem witness_MemoryPrimitives : (63 < 64 ∧ 62 ≠ 63) ∧ (60 + 3 < 64 ∧ 59 < 60) ∧ (0 + 3 < 32 ∧ 0 + 4 ≤ 4) ∧ 28 + 3 < 32 := by decide

/-- Both sides of the edge of each of the two shifts. -/
theorem witness_MixingFunctionBits : (28 ≤ 31 ∧ 28 + 3 ≤ 31) ∧ (29 ≤ 31 ∧ ¬ 29 + 3 ≤ 31) ∧ (21 ≤ 31 ∧ 21 + 10 ≤ 31) ∧
    (22 ≤ 31 ∧ ¬ 22 + 10 ≤ 31) := by decide

theorem witness_DecodeOfEncodeIsIdentity : (Instr.exw 16#6).WellFormed ∧ (Instr.exw 63#6).WellFormed ∧ (Instr.rdd 31#5).WellFormed := by
  decide

theorem witness_SequencerWordsHaveOneMeaning :
    decode (.seq 0x08F#9) = .ok (.ldw 15#4) ∧ decode (.seq 0x090#9) = .ok (.exw 16#6) := by decide

theorem witness_CommandWordsUpToIgnoredBits :
    commandOp 0x1FF#11 = 1#3 ∧ commandOp 0x5FF#11 = 5#3 ∧ commandOp 0x0FF#11 = 0#3 ∧ commandOp 0x2FF#11 = 2#3 ∧
    commandOp 0x3FF#11 = 3#3 ∧ commandOp 0x4FF#11 = 4#3 ∧ commandOp 0x6FF#11 = 6#3 ∧ commandOp 0x7FF#11 = 7#3 := by decide

theorem witness_DecoderFollowsTheFirstRow :
    firstRow (.seq 0x08F#9) = some ⟨"LDW", .seq, 0x080, 0x1F0⟩ ∧ firstRow (.seq 0x090#9) = some ⟨"EXW", .seq, 0x080, 0x1C0⟩ ∧
    firstRow (.cmd 0x600#11) = none ∧ firstRow (.seq 0x041#9) = none ∧ firstRow (.seq 0x000#9) = none := by decide

/-- A word of each kind of phase without an index, with every event the statement speaks of. -/
theorem witness_UnreachableSequencerWordsAreStuck :
    decode (.seq (stateAt .idle 1#6 0#7 []).engine.seq) = .error .unreachable ∧
    decode (.seq (stateAt .final 63#6 0#7 [.turn]).engine.seq) = .error .unreachable ∧
    decode (.seq (stateAt .check 1#6 0#7 [.rst]).engine.seq) = .error .unreachable ∧
    (decode (.seq (stateAt .error 63#6 0#7 [.cmd 0x300#11]).engine.seq) = .error .unreachable ∧
      decodeCommand 0x300#11 = .clr ∧ (stateAt .error 63#6 0#7 [.cmd 0x300#11]).engine.ph = .error) ∧
    decode (.seq (stateAt .init 1#6 0#7 [.cmd 0x300#11]).engine.seq) = .error .unreachable := by decide

theorem witness_StepRunsTheSelectedMicroOp :
    (decode (.seq (stateAt .sched 15#6 64#7 []).engine.seq) = .ok (.ldw 15#4) ∧ (stateAt .sched 15#6 64#7 []).inputs = []) ∧
    (decode (.seq (stateAt .final 0#6 64#7 [.turn, .rst]).engine.seq) = .ok .fin ∧
      (stateAt .final 0#6 64#7 [.turn, .rst]).inputs = .turn :: [.rst]) := by decide

theorem witness_StepRunsThePresentedCommand : (stateAt .idle 0#6 0#7 [.cmd 0x7FF#11, .turn]).inputs = .cmd 0x7FF#11 :: [.turn] := by
  decide

theorem witness_WaitingPhasesHaveNoEngineStep : [Phase.idle, .done, .error].all (fun p =>
    (stateAt p 0#6 0#7 []).engine.t == 0#6 && (stateAt p 0#6 0#7 []).inputs == [] &&
      (stateAt p 0#6 0#7 [.turn]).inputs == .turn :: []) = true := by decide

/-- The ends of every range of indexes: 0, 15, 16, 62 and 63. -/
theorem witness_SequencerSuccessors :
    ((stateAt .check 0#6 64#7 []).engine.len = 64#7 ∧ (stateAt .check 0#6 63#7 []).engine.len ≠ 64#7) ∧
    ((stateAt .sched 0#6 64#7 []).engine.t.toNat ≤ 15 ∧ (stateAt .sched 15#6 64#7 []).engine.t.toNat ≤ 15) ∧
    (16 ≤ (stateAt .sched 16#6 64#7 []).engine.t.toNat ∧ (stateAt .sched 62#6 64#7 []).engine.t.toNat ≤ 62) ∧
    (stateAt .sched 63#6 64#7 []).engine.t = 63#6 ∧ (stateAt .init 0#6 64#7 []).engine.t = 0#6 ∧
    ((stateAt .round 0#6 64#7 []).engine.t.toNat ≤ 62 ∧ (stateAt .round 62#6 64#7 []).engine.t.toNat ≤ 62) ∧
    (stateAt .round 63#6 64#7 []).engine.t = 63#6 ∧ (stateAt .final 0#6 64#7 []).engine.t = 0#6 := by decide

theorem witness_NopAndReservedChangeNothing : commandOp 0x000#11 = 0#3 ∧ commandOp 0x0FF#11 = 0#3 ∧ commandOp 0x600#11 = 6#3 ∧
    commandOp 0x7FF#11 = 7#3 := by decide

/-- `LEN` at 0, 63, 64, 65 and at the top of the field. -/
theorem witness_PushStoresCountsAndSaturates :
    (stateAt .idle 0#6 0#7 []).engine.len.toNat < 64 ∧ (stateAt .idle 0#6 63#7 []).engine.len.toNat < 64 ∧
    (stateAt .idle 0#6 64#7 []).engine.len.toNat = 64 ∧ 64 < (stateAt .idle 0#6 65#7 []).engine.len.toNat ∧
    64 < (stateAt .idle 0#6 127#7 []).engine.len.toNat ∧ (stateAt .done 0#6 64#7 []).engine.ph ≠ .idle := by decide

/-- Both phases; and a step of a busy engine with a `CLR` presented, one with an engine turn, one of a stopped engine. -/
theorem witness_StartEntersCheck :
    (stateAt .idle 0#6 0#7 []).engine.ph = .idle ∧ (stateAt .error 0#6 0#7 []).engine.ph ≠ .idle ∧
    ((nextState (step (stateAt .round 9#6 64#7 [.cmd 0x300#11]))).isSome = true ∧
      (stateAt .round 9#6 64#7 [.cmd 0x300#11]).engine.ph ≠ .idle ∧ decodeCommand 0x300#11 = .clr ∧ busy .round = true) ∧
    ((nextState (step (stateAt .check 0#6 64#7 []))).isSome = true ∧ (stateAt .check 0#6 64#7 []).inputs.head? = none) ∧
    ((nextState (step (stateAt .done 0#6 64#7 [.cmd 0x155#11]))).isSome = true ∧ decodeCommand 0x155#11 ≠ .clr) := by
  decide +kernel

theorem witness_ClrRestoresTheResetState :
    (stateAt .idle 5#6 65#7 []).engine.ph = .idle ∧ (stateAt .done 0#6 64#7 []).engine.ph = .done ∧
    (stateAt .error 0#6 63#7 []).engine.ph = .error ∧ (stateAt .check 0#6 0#7 []).engine.ph = .check ∧
    (stateAt .sched 63#6 64#7 []).engine.ph = .sched ∧ (stateAt .init 0#6 64#7 []).engine.ph = .init ∧
    (stateAt .round 63#6 64#7 []).engine.ph = .round ∧ (stateAt .final 0#6 64#7 []).engine.ph = .final := by decide

/-- Every phase; and steps of stopped engines: an engine turn, a read. -/
theorem witness_RdsAnswersTheStatus :
    [Phase.idle, .check, .sched, .init, .round, .final, .done, .error].all (fun p => (stateAt p 0#6 64#7 []).engine.ph == p) = true ∧
    ((nextState (step (stateAt .error 0#6 63#7 []))).isSome = true ∧ (stateAt .error 0#6 63#7 []).inputs.head? = none) ∧
    ((nextState (step (stateAt .done 0#6 64#7 [.cmd 0x400#11]))).isSome = true ∧ decodeCommand 0x400#11 ≠ .clr) := by decide +kernel

theorem witness_RddAnswersTheDigestByte : commandOp 0x5E3#11 = 5#3 ∧ commandOp 0x51F#11 = 5#3 := by decide

theorem witness_EveryCommandWordIsAnswered : commandOp 0x4FF#11 = 4#3 ∧ commandOp 0x5FF#11 = 5#3 ∧
    (commandOp 0x7FF#11 ≠ 4#3 ∧ commandOp 0x7FF#11 ≠ 5#3) := by decide

theorem witness_CommandAcceptanceByPhase :
    (commandOp 0x1AA#11 = 1#3 ∧ (stateAt .done 0#6 64#7 []).engine.ph ≠ .idle) ∧
    (commandOp 0x200#11 = 2#3 ∧ (stateAt .check 0#6 64#7 []).engine.ph ≠ .idle) ∧
    (commandOp 0x300#11 = 3#3 ∧ (stateAt .final 0#6 64#7 []).engine.ph ≠ .idle ∧ (stateAt .final 0#6 64#7 []).engine.ph ≠ .done ∧
      (stateAt .final 0#6 64#7 []).engine.ph ≠ .error) ∧
    commandOp 0x0FF#11 = 0#3 ∧ commandOp 0x600#11 = 6#3 ∧ commandOp 0x7FF#11 = 7#3 ∧ commandOp 0x400#11 = 4#3 ∧
    commandOp 0x51F#11 = 5#3 ∧
    ((stateAt .idle 0#6 63#7 []).engine.ph = .idle ∧ (stateAt .idle 0#6 63#7 []).engine.len.toNat < 64) ∧
    (stateAt .error 0#6 65#7 []).engine.ph = .error := by decide

/-- Lengths 64, 63, 65; and a state of the reachable shape whose length is not 64. -/
theorem witness_ChkAcceptsExactlySixtyFour :
    (stateAt .check 0#6 64#7 []).engine.len.toNat = 64 ∧ (stateAt .check 0#6 63#7 []).engine.len.toNat ≠ 64 ∧
    (stateAt .check 0#6 65#7 []).engine.len.toNat ≠ 64 ∧
    ((twoBytes 0xFF#8).len.toNat ≠ 64 ∧ (twoBytes 0xFF#8).ph = .check ∧ (twoBytes 0xFF#8).ReachableShape) :=
  ⟨by decide, by decide, by decide, by decide, rfl, (twoBytes_sound _).toReachableShape⟩

theorem witness_LdwLoadsTheBlockWord : 0 < 64 ∧ 0 ≠ (15#4).toNat ∧ 63 < 64 ∧ 63 ≠ (0#4).toNat := by decide

theorem witness_ExwExpandsTheSchedule :
    (16 ≤ (16#6).toNat ∧ (16#6).toNat < 63) ∧ (16 ≤ (62#6).toNat ∧ (62#6).toNat < 63) ∧ (16 ≤ (63#6).toNat ∧ (63#6).toNat = 63) := by
  decide

theorem witness_ExwBelowSixteenIsRefused : (0#6).toNat < 16 ∧ (15#6).toNat < 16 := by decide

theorem witness_RndMixesTheRegisters : (0#6).toNat < 63 ∧ (62#6).toNat < 63 ∧ (63#6).toNat = 63 := by decide

theorem witness_FinSerialisesTheDigest : (0 < 8 ∧ 0 < 4) ∧ (7 < 8 ∧ 3 < 4) := by decide

/-- Each of the seven items is changed by some operation. -/
theorem witness_WhoWritesEachItem :
    look (.push 0xAB#8) (stateAt .idle 0#6 0#7 []) (fun t => (t.engine.ib != Engine.reset.ib, t.engine.len != 0#7)) = some (true, true) ∧
    look (.ldw 1#4) { State.reset with engine := { engineAt .sched 1#6 64#7 with ib := blockAsc } }
      (fun t => (t.engine.w != Engine.reset.w, t.engine.t != 1#6)) = some (true, true) ∧
    look .init (stateAt .init 0#6 64#7 []) (fun t => (t.engine.r != Engine.reset.r, t.engine.ph != .init)) = some (true, true) ∧
    look .fin (stateAt .final 0#6 64#7 []) (fun t => t.engine.dg != Engine.reset.dg) = some true := by decide +kernel

/-- `CHK` with 63 bytes pushed, on the engine's turn. -/
theorem witness_OnlyChkRaises : (nextState (step (stateAt .check 0#6 63#7 [.turn]))).map (fun t => t.engine.ph) = some .error ∧
    (stateAt .check 0#6 63#7 [.turn]).inputs.head? ≠ some .power ∧ (stateAt .check 0#6 63#7 [.turn]).engine.ph ≠ .error := by decide

theorem witness_OnlyHostLeavesAWaitingPhase :
    ((nextState (step (stateAt .idle 0#6 0#7 [.cmd 0x200#11]))).map (fun t => t.engine.ph) = some .check ∧
      (stateAt .idle 0#6 0#7 [.cmd 0x200#11]).inputs.head? ≠ some .power) ∧
    ((nextState (step (stateAt .done 0#6 64#7 [.cmd 0x300#11]))).map (fun t => t.engine.ph) = some .idle ∧
      (stateAt .done 0#6 64#7 [.cmd 0x300#11]).inputs.head? ≠ some .power) ∧
    ((nextState (step (stateAt .error 0#6 64#7 [.rst]))).map (fun t => t.engine.ph) = some .idle ∧
      (stateAt .error 0#6 64#7 [.rst]).inputs.head? ≠ some .power) := by decide +kernel

/-- Reads, a lost `PUSH`, a lost `START` and turns, in `DONE`. -/
theorem witness_StoppedEngineStays : doneAsc.engine.ph = .done ∧ doneAsc.engine.t = 0#6 ∧
    Input.rst ∉ [Input.cmd 0x51F#11, .turn, .cmd 0x1AA#11, .cmd 0x200#11] ∧
    Input.power ∉ [Input.cmd 0x51F#11, .turn, .cmd 0x1AA#11, .cmd 0x200#11] ∧
    ∀ w, Input.cmd w ∈ [Input.cmd 0x51F#11, .turn, .cmd 0x1AA#11, .cmd 0x200#11] → decodeCommand w ≠ .clr := by
  refine ⟨rfl, rfl, by decide, by decide, fun w h => ?_⟩
  have : w = 0x51F#11 ∨ w = 0x1AA#11 ∨ w = 0x200#11 := by simpa using h
  rcases this with rfl | rfl | rfl <;> decide

theorem witness_CommandsWhileBusyAreLost :
    busy (stateAt .sched 63#6 64#7 [.cmd 0x300#11, .cmd 0x200#11, .turn]).engine.ph = true ∧
    (stateAt .sched 63#6 64#7 [.cmd 0x300#11, .cmd 0x200#11, .turn]).inputs = [0x300#11, 0x200#11].map .cmd ++ [.turn] := by decide

/-- Two machines with different blocks; and two that are stuck at the same unreachable word. -/
theorem witness_ControlDependsOnLengthAlone :
    (({ State.reset with engine := twoBytes 0x01#8 } : State).inputs = ({ State.reset with engine := twoBytes 0x02#8 } : State).inputs ∧
      ({ State.reset with engine := twoBytes 0x01#8 } : State).inputs.head? ≠ some .power ∧
      (twoBytes 0x01#8).ph = (twoBytes 0x02#8).ph ∧ (twoBytes 0x01#8).t = (twoBytes 0x02#8).t ∧
      (twoBytes 0x01#8).len = (twoBytes 0x02#8).len ∧ twoBytes 0x01#8 ≠ twoBytes 0x02#8 ∧
      (nextState (step { State.reset with engine := twoBytes 0x01#8 })).isSome = true) ∧
    step (stateAt .init 1#6 0#7 []) = .fault .stuckSequencer := ⟨by decide +kernel, rfl⟩

/-- Two different inputs of wrong length, with reads of the status and of the digest after the length check. -/
theorem witness_HostLearnsOnlyLengthAndDigest :
    ∃ s1 s2 : State, s1 ≠ s2 ∧ s1.engine.Sound ∧ s2.engine.Sound ∧ s1.inputs = s2.inputs ∧ .power ∉ s1.inputs ∧
      s1.resps = s2.resps ∧ s1.engine.ph = s2.engine.ph ∧ s1.engine.ph ≠ .idle ∧ s1.engine.t = s2.engine.t ∧
      (s1.engine.len = 64#7 ↔ s2.engine.len = 64#7) ∧ (s1.engine.len = 64#7 → compress s1.engine.ib = compress s2.engine.ib) ∧
      (nextState (runSteps 3 s1)).isSome = true ∧ (nextState (runSteps 3 s2)).isSome = true :=
  ⟨{ State.reset with engine := twoBytes 0x01#8, inputs := [.turn, .cmd 0x400#11, .cmd 0x500#11] },
    { State.reset with engine := twoBytes 0x02#8, inputs := [.turn, .cmd 0x400#11, .cmd 0x500#11] },
    by decide +kernel, twoBytes_sound _, twoBytes_sound _, rfl, by decide, rfl, rfl, by decide, rfl, by decide,
    fun h => absurd h (by decide), by decide +kernel, by decide +kernel⟩

theorem witness_StepKeepsSound : (twoBytes 0x01#8).Sound ∧ ({ State.reset with engine := twoBytes 0x01#8 } : State).inputs.head? ≠ some .power ∧
    (nextState (step { State.reset with engine := twoBytes 0x01#8 })).isSome = true := ⟨twoBytes_sound _, by decide, by decide +kernel⟩

theorem witness_SoundEngineAlwaysSteps : ({ State.reset with engine := twoBytes 0x01#8 } : State).engine.Sound := twoBytes_sound _

theorem witness_ReachableStatesSatisfyI1ToI9 : Input.power ∉ [Input.cmd 0x1AA#11, .turn, .rst, .cmd 0x200#11] := by decide

theorem witness_NoPartialResultBeforeDone : (twoBytes 0xFF#8).Sound ∧ (twoBytes 0xFF#8).ph ≠ .done := ⟨twoBytes_sound _, by decide⟩

theorem witness_ScheduleMeetsItsRecurrence : (0 < 16 ∧ 15 < 16) ∧ (16 ≤ 16 ∧ 16 < 64) ∧ (16 ≤ 63 ∧ 63 < 64) := by decide

theorem witness_SchedulePhaseFillsW : (stateAt .sched 0#6 64#7 []).inputs = [] ∧ (stateAt .sched 0#6 64#7 []).engine.ph = .sched ∧
    (stateAt .sched 0#6 64#7 []).engine.t = 0#6 := by decide

theorem witness_RoundPhasesMixR : (stateAt .init 0#6 64#7 []).inputs = [] ∧ (stateAt .init 0#6 64#7 []).engine.ph = .init ∧
    (stateAt .init 0#6 64#7 []).engine.t = 0#6 := by decide

theorem witness_FinalStepWritesAOneToOneDigest : (stateAt .final 0#6 64#7 []).inputs = [] ∧
    (stateAt .final 0#6 64#7 []).engine.ph = .final ∧ (stateAt .final 0#6 64#7 []).engine.t = 0#6 ∧ digest romH = digest romH := by decide

theorem witness_EngineStepCounts : (stateAt .check 0#6 64#7 []).inputs = [] ∧ (stateAt .check 0#6 64#7 []).engine.ph = .check ∧
    (stateAt .check 0#6 64#7 []).engine.t = 0#6 ∧ (stateAt .check 0#6 64#7 []).engine.len = 64#7 ∧ 0 < 131 ∧ 130 < 131 ∧
    (stateAt .check 0#6 65#7 []).engine.len ≠ 64#7 := by decide

/-- A program that loads a block of 64 bytes, and ones of length 0, 63 and 65. -/
theorem witness_TransformEndToEnd :
    (∃ s : State, s.engine = State.reset.engine ∧ s.inputs = pseudoLoad blockAsc.toList ++ issue .start) ∧
    blockAsc.toList.length = 64 ∧ ([] : List Byte).length ≠ 64 ∧ (List.replicate 63 0#8).length ≠ 64 ∧
    (List.replicate 65 0#8).length ≠ 64 := ⟨⟨{ State.reset with inputs := pseudoLoad blockAsc.toList ++ issue .start }, rfl, rfl⟩, by decide +kernel⟩

/-- Two machines of valid length with the same block that differ in the hidden `R`. -/
theorem witness_HostLearnsOnlyLengthAndDigest_valid_length :
    ∃ s1 s2 : State, s1 ≠ s2 ∧ s1.engine.Sound ∧ s2.engine.Sound ∧ s1.inputs = s2.inputs ∧ .power ∉ s1.inputs ∧
      s1.resps = s2.resps ∧ s1.engine.ph = s2.engine.ph ∧ s1.engine.ph ≠ .idle ∧ s1.engine.t = s2.engine.t ∧
      s1.engine.len = 64#7 ∧ s2.engine.len = 64#7 ∧ compress s1.engine.ib = compress s2.engine.ib ∧
      (nextState (runSteps 3 s1)).isSome = true ∧ (nextState (runSteps 3 s2)).isSome = true :=
  ⟨{ State.reset with engine := acceptedAsc romH, inputs := [.turn, .cmd 0x400#11, .cmd 0x500#11] },
    { State.reset with engine := acceptedAsc (Vector.replicate 8 0#32), inputs := [.turn, .cmd 0x400#11, .cmd 0x500#11] },
    by decide +kernel, acceptedAsc_sound _, acceptedAsc_sound _, rfl, by decide, rfl, rfl, by decide, rfl, rfl, rfl, rfl,
    by decide +kernel, by decide +kernel⟩

/-- The 64 bytes of `ASC` pushed, with a read before them; after the `START` a lost `CLR`, turns and reads. -/
theorem witness_TransformIgnoresInterleaving_valid_length :
    pushedBytes (.cmd 0x400#11 :: pseudoLoad blockAsc.toList) = some blockAsc.toList ∧ decodeCommand 0x200#11 = .start ∧
    undisturbed (engineSteps blockAsc.toList) [.cmd 0x300#11, .turn, .cmd 0x51F#11, .turn] = true ∧
    (∃ s : State, s.engine = State.reset.engine ∧ s.inputs = (.cmd 0x400#11 :: pseudoLoad blockAsc.toList) ++ .cmd 0x200#11 ::
      [.cmd 0x300#11, .turn, .cmd 0x51F#11, .turn]) :=
  ⟨by decide +kernel, by decide, by decide +kernel,
    { State.reset with inputs := (.cmd 0x400#11 :: pseudoLoad blockAsc.toList) ++ .cmd 0x200#11 ::
      [.cmd 0x300#11, .turn, .cmd 0x51F#11, .turn] }, rfl, rfl⟩

/-- A `PUSH`, a `NOP`, a turn and a read before the `START`; after it a `CLR` while busy, a turn, a read and a reserved word. -/
theorem witness_TransformIgnoresInterleaving :
    pushedBytes [.cmd 0x1AB#11, .cmd 0x0FF#11, .turn, .cmd 0x400#11] = some [0xAB#8] ∧ decodeCommand 0x2A5#11 = .start ∧
    undisturbed (engineSteps [0xAB#8]) [.cmd 0x300#11, .turn, .cmd 0x51F#11, .cmd 0x700#11] = true ∧
    (∃ s : State, s.engine = State.reset.engine ∧ s.inputs = [.cmd 0x1AB#11, .cmd 0x0FF#11, .turn, .cmd 0x400#11] ++ .cmd 0x2A5#11 ::
      [.cmd 0x300#11, .turn, .cmd 0x51F#11, .cmd 0x700#11]) :=
  ⟨by decide, by decide, by decide, { State.reset with inputs := [.cmd 0x1AB#11, .cmd 0x0FF#11, .turn, .cmd 0x400#11] ++ .cmd 0x2A5#11 ::
      [.cmd 0x300#11, .turn, .cmd 0x51F#11, .cmd 0x700#11] }, rfl, rfl⟩

/-- On an engine that holds the digest of another block; exactly the steps that are needed, in two parts. -/
theorem witness_XformAnswersTheDigest :
    (∃ s : State, s.engine.ph = .done ∧ s.engine = Engine.stopped blockAsc.toList ∧ s.inputs = pseudoXform blockOnes.toList [100, 31]) ∧
    engineSteps blockOnes.toList ≤ [100, 31].sum ∧ engineSteps [0xAB#8] ≤ [0, 1].sum :=
  ⟨⟨{ doneAsc with inputs := _ }, rfl, rfl, rfl⟩, by decide +kernel⟩

theorem witness_AssemblerEmitsCanonicalWords :
    assembleLine ['N', 'O', 'P'] = .ok [.cmd 0x000#11] ∧ (numeral ['2', '5', '6'] = some 256 ∧ 255 < 256) ∧
    (numeral ['0', 'x', '2', '0'] = some 32 ∧ 31 < 32) := by decide +kernel

end Sys2Proof.Tests
end

section
/-! Laws of the word primitives (00_scope.md R10 to R13): the bits of a rotation and of a shift, the number that `BE32`
packs and the bytes that `BYTES32` cuts out; and the statements about them. -/

namespace Sys2Proof.Machine

/-- R10 with its source bit. The amount may be any number: both sides see it modulo 32. The two cases are the bits that
move down inside the word and those that come round from its low end. -/
@[simp] theorem rotr_getLsbD (x : Word) (n : Nat) {i : Nat} (hi : i < 32) :
    (rotr x n).getLsbD i = x.getLsbD ((i + n) % 32) := by
  rw [rotr, BitVec.getLsbD_rotateRight]
  by_cases stays : i < 32 - n % 32
  · rw [decide_eq_true stays, cond_true]
    congr 1
    omega
  · rw [decide_eq_false stays, cond_false, decide_eq_true hi, Bool.true_and]
    congr 1
    omega

/-- R11 without its case split: `getLsbD` reads `false` above bit 31. -/
@[simp] theorem shr_getLsbD (x : Word) (n i : Nat) : (shr x n).getLsbD i = x.getLsbD (i + n) := by
  rw [shr, BitVec.getLsbD_ushiftRight, Nat.add_comm]

/-- Concatenation as arithmetic, for one more byte at the low end. -/
theorem toNat_append_byte {w : Nat} (x : BitVec w) (b : Byte) : (x ++ b).toNat = x.toNat * 2 ^ 8 + b.toNat := by
  rw [BitVec.toNat_append, ← Nat.shiftLeft_add_eq_or_of_lt b.isLt, Nat.shiftLeft_eq]

/-- R12. -/
theorem be32_toNat (b0 b1 b2 b3 : Byte) :
    (be32 b0 b1 b2 b3).toNat = b0.toNat * 2 ^ 24 + b1.toNat * 2 ^ 16 + b2.toNat * 2 ^ 8 + b3.toNat := by
  simp only [be32, toNat_append_byte]
  omega

/-- R13, its four slices as one formula in the index. -/
theorem bytes32_getElem (x : Word) {j : Nat} (h : j < 4) : (bytes32 x)[j] = x.extractLsb' (8 * (3 - j)) 8 := by
  have index_cases : j = 0 ∨ j = 1 ∨ j = 2 ∨ j = 3 := by omega
  rcases index_cases with rfl | rfl | rfl | rfl <;> rfl

/-- R13 as arithmetic. -/
theorem bytes32_getElem_toNat (x : Word) {j : Nat} (h : j < 4) :
    (bytes32 x)[j].toNat = x.toNat / 2 ^ (8 * (3 - j)) % 256 := by
  rw [bytes32_getElem, BitVec.extractLsb'_toNat, Nat.shiftRight_eq_div_pow]

/-- Settles O5. The `0` of `SHR` is what `getLsbD` reads above bit 31. -/
theorem rotateAndShiftMoveBits : Obligations.RotateAndShiftMoveBits := by
  intro x n i _ _ hi
  refine ⟨rotr_getLsbD x n (Nat.lt_succ_of_le hi), ?_⟩
  rw [shr_getLsbD]
  split
  · rfl
  · next out => exact BitVec.getLsbD_of_ge x (i + n) (Nat.lt_of_not_le out)

/-- Settles O6. -/
theorem bigEndianPacking : Obligations.BigEndianPacking :=
  ⟨be32_toNat, fun x _ h => bytes32_getElem_toNat x h⟩

end Sys2Proof.Machine
end

section
/-! Laws of the reset state (10_state.md R36), of the `RST` pulse and `CLR` that lead to it (70_reset_and_hazards.md R160,
44_transform.md R120), and of the status register (10_state.md R25, R26); and the statements about them. -/

namespace Sys2Proof.Machine

/-! ### The reset state and the ways to it -/

/-- R160, with the frame of the outside world's record. -/
theorem step_of_rst {s : State} {rest : List Input} (pulse : s.inputs = .rst :: rest) :
    step s = .next { s with engine := Engine.reset, inputs := rest } := by
  rw [step_cons pulse]
  rfl

/-- R116, the row of `CLR`. -/
theorem acceptsClear_iff (ph : Phase) : acceptsClear ph = true ↔ ph = .idle ∨ ph = .done ∨ ph = .error := by
  cases ph <;> decide

/-- R120, the accepted case. -/
theorem exec_clr_of_acceptsClear {s : State} (accepted : acceptsClear s.engine.ph = true) :
    exec .clr s = .next (s.respond Engine.reset 0x00#8) := by
  show execClr s = _
  rw [execClr, if_pos accepted, Engine.clear_eq]

/-- Settles O1. -/
theorem resetLeavesZeroAndIdle : Obligations.ResetLeavesZeroAndIdle := by
  refine ⟨⟨fun _ => Vector.getElem_replicate, rfl, fun _ => Vector.getElem_replicate, fun _ => Vector.getElem_replicate,
    fun _ => Vector.getElem_replicate, rfl, rfl, by decide, by decide⟩, ?rst, ?clr⟩
  case rst => exact fun _ _ pulse => ⟨_, step_of_rst pulse, rfl⟩
  case clr => exact fun s waiting => ⟨_, exec_clr_of_acceptsClear ((acceptsClear_iff s.engine.ph).mpr waiting), rfl⟩

/-! ### The flags and the fields of `STATUS` -/

@[simp] theorem flagReady_iff (ph : Phase) : flagReady ph = true ↔ ph = .idle := decide_eq_true_iff

@[simp] theorem flagDone_iff (ph : Phase) : flagDone ph = true ↔ ph = .done := decide_eq_true_iff

@[simp] theorem flagErr_iff (ph : Phase) : flagErr ph = true ↔ ph = .error := decide_eq_true_iff

/-- R23: the five busy phases. -/
theorem busy_iff (ph : Phase) :
    busy ph = true ↔ ph = .check ∨ ph = .sched ∨ ph = .init ∨ ph = .round ∨ ph = .final := by
  cases ph <;> decide

@[simp] theorem flagBusy_iff (ph : Phase) :
    flagBusy ph = true ↔ ph = .check ∨ ph = .sched ∨ ph = .init ∨ ph = .round ∨ ph = .final := busy_iff ph

@[simp] theorem statusOf_bit0 (ph : Phase) : (statusOf ph)[0] = flagReady ph := by
  cases ph <;> rfl

@[simp] theorem statusOf_bit1 (ph : Phase) : (statusOf ph)[1] = flagBusy ph := by
  cases ph <;> rfl

@[simp] theorem statusOf_bit2 (ph : Phase) : (statusOf ph)[2] = flagDone ph := by
  cases ph <;> rfl

@[simp] theorem statusOf_bit3 (ph : Phase) : (statusOf ph)[3] = flagErr ph := by
  cases ph <;> rfl

@[simp] theorem statusOf_ecode (ph : Phase) : (statusOf ph).extractLsb' 4 2 = ecode ph := by
  cases ph <;> rfl

@[simp] theorem statusOf_high (ph : Phase) : (statusOf ph).extractLsb' 6 2 = 0b00#2 := by
  cases ph <;> rfl

/-- R121. -/
theorem exec_rds (s : State) : exec .rds s = .next (s.respond s.engine s.engine.status) := rfl

/-- Settles O28. -/
theorem statusFieldsFollowThePhase : Obligations.StatusFieldsFollowThePhase := by
  refine ⟨by decide, exec_rds, fun e => ?_⟩
  simp only [Engine.status, Nat.reduceLT, BitVec.getLsbD_eq_getElem, statusOf_bit0, statusOf_bit1, statusOf_bit2,
    statusOf_bit3]
  exact ⟨flagReady_iff e.ph, flagBusy_iff e.ph, flagDone_iff e.ph, flagErr_iff e.ph, statusOf_ecode e.ph, statusOf_high e.ph⟩

end Sys2Proof.Machine
end

section
/-! Laws of the responses of the command port (30_encoding.md R62, R64): which opcode asks for which read, what the two reads
answer (44_transform.md R121, R122), and that every other command answers 0x00; and the statement about them. -/

namespace Sys2Proof

/-- R62, the row of `RDS`. -/
theorem decodeCommand_of_op_four {w : BitVec 11} (op : commandOp w = 4#3) : decodeCommand w = .rds := by
  rw [decodeCommand, op]
  rfl

/-- R62, the row of `RDD`. -/
theorem decodeCommand_of_op_five {w : BitVec 11} (op : commandOp w = 5#3) : decodeCommand w = .rdd (commandIndex w) := by
  rw [decodeCommand, op]
  rfl

/-- The two read opcodes are the only ones that read (R62, R67). -/
theorem decodeCommand_of_op_not_read {w : BitVec 11} (notRds : commandOp w ≠ 4#3) (notRdd : commandOp w ≠ 5#3) :
    decodeCommand w = .nop ∨ (∃ b, decodeCommand w = .push b) ∨ decodeCommand w = .start ∨ decodeCommand w = .clr := by
  unfold decodeCommand
  split
  case h_5 op => exact absurd (BitVec.eq_of_toNat_eq op) notRds
  case h_6 op => exact absurd (BitVec.eq_of_toNat_eq op) notRdd
  all_goals simp

end Sys2Proof

namespace Sys2Proof.Machine

/-- R122. -/
theorem exec_rdd (k : BitVec 5) (s : State) : exec (.rdd k) s = .next (s.respond s.engine s.engine.dg[k.toNat]) := rfl

/-- R117 to R120: a command that reads nothing answers 0x00, whether the phase accepts it or not. -/
theorem exec_of_op_not_read {w : BitVec 11} (s : State) (notRds : commandOp w ≠ 4#3) (notRdd : commandOp w ≠ 5#3) :
    ∃ e, exec (decodeCommand w) s = .next (s.respond e 0x00#8) := by
  rcases decodeCommand_of_op_not_read notRds notRdd with h | ⟨b, h⟩ | h | h <;> rw [h] <;> exact ⟨_, rfl⟩

/-- Settles O29. The opcodes split into `RDS`, `RDD` and those that read nothing. -/
theorem everyCommandWordIsAnswered : Obligations.EveryCommandWordIsAnswered := by
  intro s w
  by_cases rds : commandOp w = 4#3
  · refine ⟨_, _, decodeCommand_of_op_four rds ▸ exec_rds s, rfl, fun _ => rfl, fun rdd => ?_, fun notRds => absurd rds notRds⟩
    exact absurd (rds.symm.trans rdd) (by decide)
  by_cases rdd : commandOp w = 5#3
  · exact ⟨_, _, decodeCommand_of_op_five rdd ▸ exec_rdd (commandIndex w) s, rfl, fun h => absurd h rds, fun _ => rfl,
      fun _ notRdd => absurd rdd notRdd⟩
  · obtain ⟨e, answered⟩ := exec_of_op_not_read s rds rdd
    exact ⟨_, _, answered, rfl, fun h => absurd h rds, fun h => absurd h rdd, fun _ _ => rfl⟩

end Sys2Proof.Machine
end

section
/-! Laws of the mixing functions (41_schedule.md R85, R86; 42_rounds.md R97, R99) bit by bit, and of the two operations
of the schedule, `LDW` (R88) and `EXW` (R89): the words they write, the index they leave and their frames; and the
statements about them. -/

namespace Sys2Proof.Machine

/-! ### The mixing functions, bit by bit -/

/-- R85. The bit that `SHR` brings in reads `false` above bit 31. -/
theorem ssig0_getLsbD (x : Word) {i : Nat} (hi : i < 32) :
    (ssig0 x).getLsbD i = ((x.getLsbD ((i + 7) % 32) ^^ x.getLsbD ((i + 18) % 32)) ^^ x.getLsbD (i + 3)) := by
  simp only [ssig0, BitVec.getLsbD_xor, rotr_getLsbD x _ hi, shr_getLsbD]

/-- R86. -/
theorem ssig1_getLsbD (x : Word) {i : Nat} (hi : i < 32) :
    (ssig1 x).getLsbD i = ((x.getLsbD ((i + 17) % 32) ^^ x.getLsbD ((i + 19) % 32)) ^^ x.getLsbD (i + 10)) := by
  simp only [ssig1, BitVec.getLsbD_xor, rotr_getLsbD x _ hi, shr_getLsbD]

/-- R97. -/
theorem bsig1_getLsbD (x : Word) {i : Nat} (hi : i < 32) :
    (bsig1 x).getLsbD i = ((x.getLsbD ((i + 6) % 32) ^^ x.getLsbD ((i + 11) % 32)) ^^ x.getLsbD ((i + 25) % 32)) := by
  simp only [bsig1, BitVec.getLsbD_xor, rotr_getLsbD x _ hi]

/-- R99. -/
theorem bsig0_getLsbD (x : Word) {i : Nat} (hi : i < 32) :
    (bsig0 x).getLsbD i = ((x.getLsbD ((i + 2) % 32) ^^ x.getLsbD ((i + 13) % 32)) ^^ x.getLsbD ((i + 22) % 32)) := by
  simp only [bsig0, BitVec.getLsbD_xor, rotr_getLsbD x _ hi]

/-- The guard under which the statements read a shifted-in bit says no more than `getLsbD` does. -/
theorem getLsbD_guard (x : Word) (j : Nat) : (if j ≤ 31 then x.getLsbD j else false) = x.getLsbD j := by
  split
  · rfl
  · next out => exact (BitVec.getLsbD_of_ge x j (Nat.lt_of_not_le out)).symm

/-- Settles O9. -/
theorem mixingFunctionBits : Obligations.MixingFunctionBits := by
  intro x i hi
  have inWord : i < 32 := Nat.lt_succ_of_le hi
  rw [getLsbD_guard, getLsbD_guard]
  exact ⟨ssig0_getLsbD x inWord, ssig1_getLsbD x inWord, bsig1_getLsbD x inWord, bsig0_getLsbD x inWord⟩

/-! ### The words that `LDW` and `EXW` write, as numbers -/

/-- R8. -/
theorem add32_toNat (x y : Word) : (add32 x y).toNat = (x.toNat + y.toNat) % 2 ^ 32 := BitVec.toNat_add x y

/-- R88: the big-endian word of a 4-byte group of the block. -/
theorem blockWord_toNat (ib : Vector Byte 64) (t : BitVec 4) :
    (blockWord ib t).toNat = ib[4 * t.toNat].toNat * 2 ^ 24 + ib[4 * t.toNat + 1].toNat * 2 ^ 16 +
      ib[4 * t.toNat + 2].toNat * 2 ^ 8 + ib[4 * t.toNat + 3].toNat :=
  be32_toNat _ _ _ _

/-- R89: wrapping at each of the three additions is wrapping once at the end. -/
theorem expandWord_toNat (w : Vector Word 64) {t : Nat} (lo : 16 ≤ t) (hi : t < 64) :
    (expandWord w t lo hi).toNat =
      (w[t - 16].toNat + (ssig0 w[t - 15]).toNat + w[t - 7].toNat + (ssig1 w[t - 2]).toNat) % 2 ^ 32 := by
  simp only [expandWord, add32_toNat, Nat.mod_add_mod]

/-- R24: below 63 the next index does not wrap. -/
theorem index_succ_toNat {t : BitVec 6} (below : t.toNat < 63) : (t + 1#6).toNat = t.toNat + 1 := by
  rw [BitVec.toNat_add_of_lt (show t.toNat + 1 < 2 ^ 6 by omega)]
  rfl

/-! ### The two operations -/

/-- R88. -/
theorem exec_ldw (t : BitVec 4) (s : State) :
    exec (.ldw t) s = .next (s.withEngine { s.engine with
      w := s.engine.w.set t.toNat (blockWord s.engine.ib t)
      t := t.setWidth 6 + 1#6 }) := rfl

/-- R89, for an index of the table. -/
theorem exec_exw_of_ge {t : BitVec 6} (lo : 16 ≤ t.toNat) (s : State) :
    exec (.exw t) s = .next (s.withEngine (s.engine.expand t lo)) := dif_pos lo

/-- R89, the frame: `EXW` changes nothing but `W`, `PH` and `T`. -/
theorem Engine.expand_frame (e : Engine) {t : BitVec 6} (lo : 16 ≤ t.toNat) :
    e.expand t lo = { e with w := (e.expand t lo).w, ph := (e.expand t lo).ph, t := (e.expand t lo).t } :=
  Engine.ext_items (Engine.expand_ib e t lo) (Engine.expand_len e t lo) rfl (Engine.expand_r e t lo)
    (Engine.expand_dg e t lo) rfl rfl

/-- Settles O32. -/
theorem ldwLoadsTheBlockWord : Obligations.LdwLoadsTheBlockWord := by
  intro s t
  refine ⟨_, _, exec_ldw t s, ?index, fun i h other => ?frame, ?word⟩
  case index =>
    have widened : (t.setWidth 6).toNat = t.toNat := BitVec.toNat_setWidth_of_le (by decide)
    rw [index_succ_toNat (by omega), widened]
  case frame => exact Vector.getElem_set_ne _ h other.symm
  case word => rw [Vector.getElem_set_self, blockWord_toNat]

/-- Settles O33. The successor is the one clause that depends on whether `t` is the last index. -/
theorem exwExpandsTheSchedule : Obligations.ExwExpandsTheSchedule := by
  intro s t lo
  refine ⟨(s.engine.expand t lo).w, (s.engine.expand t lo).ph, (s.engine.expand t lo).t, ?completes,
    fun i h other => ?frame, ?word, fun below => ?next, fun last => ?last⟩
  case completes =>
    rw [exec_exw_of_ge lo, ← Engine.expand_frame]
    rfl
  case frame =>
    simp only [Engine.expand_w]
    exact Vector.getElem_set_ne _ h other.symm
  case word =>
    simp only [Engine.expand_w]
    rw [Vector.getElem_set_self, expandWord_toNat]
  case next =>
    rw [Engine.expand_ph, Engine.expand_t, if_pos below, if_pos below]
    exact ⟨rfl, index_succ_toNat below⟩
  case last =>
    rw [Engine.expand_ph, Engine.expand_t, if_neg (by omega), if_neg (by omega)]
    exact ⟨rfl, rfl⟩

end Sys2Proof.Machine
end

section
/-! Laws of the compression rounds (42_rounds.md): `CH` and `MAJ` bit by bit (R98, R100), the two sums of a round as numbers
(R101, R102), and the two operations `INIT` (R96) and `RND` (R103) with their frames; and the statements about them. -/

namespace Sys2Proof.Machine

/-! ### The choice and the majority, bit by bit -/

/-- R98: the bit of `x` chooses between the bits of `y` and `z`. -/
theorem ch_getLsbD (x y z : Word) {i : Nat} (hi : i < 32) :
    (ch x y z).getLsbD i = if x.getLsbD i then y.getLsbD i else z.getLsbD i := by
  simp only [ch, BitVec.getLsbD_xor, BitVec.getLsbD_and, BitVec.getLsbD_not, decide_eq_true hi, Bool.true_and]
  cases x.getLsbD i <;> simp

/-- R100. -/
theorem maj_getLsbD (x y z : Word) (i : Nat) :
    (maj x y z).getLsbD i =
      (((x.getLsbD i && y.getLsbD i) ^^ (x.getLsbD i && z.getLsbD i)) ^^ (y.getLsbD i && z.getLsbD i)) := by
  simp only [maj, BitVec.getLsbD_xor, BitVec.getLsbD_and]

/-- The formula of R100 on single bits is the majority vote: of the eight cases, the four with two ones or more. -/
theorem majority_iff_two_le (a b c : Bool) :
    (((a && b) ^^ (a && c)) ^^ (b && c)) = true ↔ 2 ≤ a.toNat + b.toNat + c.toNat := by
  revert a b c
  decide

/-- Settles O10. -/
theorem chooseAndMajorityBits : Obligations.ChooseAndMajorityBits := by
  intro x y z
  refine ⟨rfl, rfl, fun i hi => ⟨ch_getLsbD x y z (Nat.lt_succ_of_le hi), ?_⟩⟩
  rw [maj_getLsbD]
  exact majority_iff_two_le _ _ _

/-! ### The two sums of a round, as numbers -/

/-- R101: wrapping at each of the four additions is wrapping once at the end. -/
theorem temp1_toNat (r : Vector Word 8) (k w : Word) :
    (temp1 r k w).toNat =
      (r[7].toNat + (bsig1 r[4]).toNat + (ch r[4] r[5] r[6]).toNat + k.toNat + w.toNat) % 2 ^ 32 := by
  simp only [temp1, add32_toNat, Nat.mod_add_mod, regE, regF, regG, regH]

/-- R102. -/
theorem temp2_toNat (r : Vector Word 8) :
    (temp2 r).toNat = ((bsig0 r[0]).toNat + (maj r[0] r[1] r[2]).toNat) % 2 ^ 32 :=
  add32_toNat _ _

/-! ### The two operations -/

/-- R96. -/
theorem exec_init (s : State) :
    exec .init s = .next (s.withEngine { s.engine with r := romH, ph := .round, t := 0#6 }) := rfl

/-- R103. -/
theorem exec_rnd (t : BitVec 6) (s : State) : exec (.rnd t) s = .next (s.withEngine (s.engine.round t)) := rfl

/-- R103, the frame: `RND` changes nothing but `R`, `PH` and `T`. -/
theorem Engine.round_frame (e : Engine) (t : BitVec 6) :
    e.round t = { e with r := (e.round t).r, ph := (e.round t).ph, t := (e.round t).t } :=
  Engine.ext_items (Engine.round_ib e t) (Engine.round_len e t) (Engine.round_w e t) rfl (Engine.round_dg e t) rfl rfl

/-- R103: below the last index the round goes on to the next one, in the same phase. -/
theorem Engine.round_successor_of_lt (e : Engine) {t : BitVec 6} (below : t.toNat < 63) :
    (e.round t).ph = e.ph ∧ (e.round t).t.toNat = t.toNat + 1 := by
  rw [Engine.round_ph, Engine.round_t, if_pos below, if_pos below]
  exact ⟨rfl, index_succ_toNat below⟩

/-- R103: after the last index comes `FINAL`. -/
theorem Engine.round_successor_of_last (e : Engine) {t : BitVec 6} (last : t.toNat = 63) :
    (e.round t).ph = .final ∧ (e.round t).t = 0#6 := by
  rw [Engine.round_ph, Engine.round_t, if_neg (by omega), if_neg (by omega)]
  exact ⟨rfl, rfl⟩

/-- Settles O35. The words that the statement writes out are those of `romH` (R80). -/
theorem initLoadsTheHashValues : Obligations.InitLoadsTheHashValues := exec_init

/-- Settles O36. The six registers that only move do so by definition of `roundStep`; `e` and `a` are sums. -/
theorem rndMixesTheRegisters : Obligations.RndMixesTheRegisters := by
  intro s t
  refine ⟨roundStep s.engine.r (roundConstant t) (scheduleWord s.engine.w t), (s.engine.round t).ph, (s.engine.round t).t,
    (temp1 s.engine.r (roundConstant t) (scheduleWord s.engine.w t)).toNat, (temp2 s.engine.r).toNat, ?completes,
    temp1_toNat _ _ _, temp2_toNat _, rfl, rfl, rfl, ?e, rfl, rfl, rfl, ?a,
    Engine.round_successor_of_lt _, Engine.round_successor_of_last _⟩
  case completes =>
    rw [exec_rnd, Engine.round_frame, Engine.round_r]
    rfl
  case e => exact add32_toNat (regD s.engine.r) (temp1 s.engine.r _ _)
  case a => exact add32_toNat (temp1 s.engine.r _ _) (temp2 s.engine.r)

end Sys2Proof.Machine
end

section
/-! Laws of the digest finalizer (43_finalizer.md): the bytes of a digest group as numbers (R111), where `FIN` puts them
(R112), the operation; and the statement about them. -/

namespace Sys2Proof.Machine

/-- R111: byte `j`, most significant first, of `final[k]`. -/
theorem digestGroup_getElem_toNat (r : Vector Word 8) {k j : Nat} (hk : k < 8) (hj : j < 4) :
    (digestGroup r k hk)[j].toNat = (romH[k].toNat + r[k].toNat) % 2 ^ 32 / 2 ^ (8 * (3 - j)) % 256 := by
  rw [digestGroup, bytes32_getElem_toNat, add32_toNat]

/-- R112 in the address form `4k + j`: the loop leaves byte `j` of group `k` there, whatever `DG` held before. -/
theorem writeDigest_getElem_group (dg : Vector Byte 32) (r : Vector Word 8) {k j : Nat} (hk : k < 8) (hj : j < 4) :
    (writeDigest dg r)[4 * k + j] = (digestGroup r k hk)[j] := by
  have group : (4 * k + j) / 4 = k := by omega
  have byte : (4 * k + j) % 4 = j := by omega
  simp only [writeDigest_getElem, group, byte]

/-- R112. -/
theorem exec_fin (s : State) : exec .fin s = .next (s.withEngine s.engine.finalize) := rfl

/-- Settles O39. -/
theorem finSerialisesTheDigest : Obligations.FinSerialisesTheDigest := by
  intro s
  refine ⟨writeDigest s.engine.dg s.engine.r, exec_fin s, fun k j hk hj => ?_⟩
  rw [writeDigest_getElem_group _ _ hk hj, digestGroup_getElem_toNat]

end Sys2Proof.Machine
end

section
/-! Laws of the length check (44_transform.md R123) and of the successor of each micro-operation (R124); and the statements
about them. -/

namespace Sys2Proof.Machine

/-! ### The length check -/

/-- R123: both answers are a successor and nothing else, since raising the exception is no more than that (R145). -/
theorem exec_chk (s : State) :
    exec .chk s = .next (s.withEngine (s.engine.goto (if s.engine.len = 64#7 then .sched else .error) 0#6)) := by
  show execChk s = _
  rw [execChk]
  split <;> rfl

/-- The length as a number, as R123 compares it. -/
theorem len_eq_iff_toNat (len : BitVec 7) : len = 64#7 ↔ len.toNat = 64 := BitVec.toNat_inj.symm

/-- I4 and I6 of R34: before `SCHED` and in `ERROR` nothing has been computed. -/
theorem Engine.ReachableShape.nothing_computed {e : Engine} (shape : e.ReachableShape)
    (phase : e.ph = .idle ∨ e.ph = .check ∨ e.ph = .error) :
    e.w = Engine.reset.w ∧ e.r = Engine.reset.r ∧ e.dg = Engine.reset.dg := by
  have notDone : e.ph ≠ .done := by rcases phase with ph | ph | ph <;> rw [ph] <;> decide
  obtain ⟨wZero, rZero⟩ := shape.i6 phase
  exact ⟨Vector.ext fun t h => (wZero t h).trans (Vector.getElem_replicate h).symm,
    Vector.ext fun k h => (rZero k h).trans (Vector.getElem_replicate h).symm,
    Vector.ext fun k h => (shape.i4 notDone k h).trans (Vector.getElem_replicate h).symm⟩

/-- Settles O31. -/
theorem chkAcceptsExactlySixtyFour : Obligations.ChkAcceptsExactlySixtyFour := by
  intro s
  refine ⟨_, exec_chk s, fun valid => ?accepted, fun invalid => ?raised⟩
  case accepted => exact if_pos ((len_eq_iff_toNat _).mpr valid)
  case raised =>
    rw [if_neg (mt (len_eq_iff_toNat _).mp invalid)]
    exact ⟨rfl, by decide, fun check shape => shape.nothing_computed (.inr (.inl check))⟩

/-! ### The successors of the schedule's two operations -/

/-- R66: of the indexes of `LDW` the operand field drops no bit that is set. -/
theorem setWidth_extractLsb'_of_le {t : BitVec 6} (loads : t.toNat ≤ 15) : (t.extractLsb' 0 4).setWidth 6 = t := by
  apply BitVec.eq_of_toNat_eq
  rw [BitVec.toNat_setWidth_of_le (by decide), BitVec.extractLsb'_toNat, Nat.shiftRight_zero]
  exact Nat.mod_eq_of_lt (Nat.lt_succ_of_le loads)

/-- R89: below the last index `EXW` goes on to the next one, in the same phase. -/
theorem Engine.expand_successor_of_lt (e : Engine) {t : BitVec 6} (lo : 16 ≤ t.toNat) (below : t.toNat < 63) :
    (e.expand t lo).ph = e.ph ∧ (e.expand t lo).t.toNat = t.toNat + 1 := by
  rw [Engine.expand_ph, Engine.expand_t, if_pos below, if_pos below]
  exact ⟨rfl, index_succ_toNat below⟩

/-- R89: after the last index comes `INIT`. -/
theorem Engine.expand_successor_of_last (e : Engine) {t : BitVec 6} (lo : 16 ≤ t.toNat) (last : t.toNat = 63) :
    (e.expand t lo).ph = .init ∧ (e.expand t lo).t = 0#6 := by
  rw [Engine.expand_ph, Engine.expand_t, if_neg (by omega), if_neg (by omega)]
  exact ⟨rfl, rfl⟩

/-! ### The engine's own steps -/

section
variable {s : State} (noEvent : s.inputs = [])
include noEvent

/-- R66 and R124, the words of `LDW`. -/
theorem step_eq_exec_ldw (sched : s.engine.ph = .sched) (loads : s.engine.t.toNat ≤ 15) :
    step s = exec (.ldw (s.engine.t.extractLsb' 0 4)) s :=
  (step_nil noEvent).trans (engineTurn_ldw sched (Nat.lt_succ_of_le loads))

/-- R66 and R124, the words of `EXW`. -/
theorem step_eq_exec_exw (sched : s.engine.ph = .sched) (expands : 16 ≤ s.engine.t.toNat) :
    step s = exec (.exw s.engine.t) s :=
  ((step_nil noEvent).trans (engineTurn_exw sched expands)).trans (exec_exw_of_ge expands s).symm

/-- R66 and R124, the words of `RND`. -/
theorem step_eq_exec_rnd (round : s.engine.ph = .round) : step s = exec (.rnd s.engine.t) s :=
  (step_nil noEvent).trans (engineTurn_round round)

/-- R66 and R124, the word of `CHK`. -/
theorem step_eq_exec_chk (check : s.engine.ph = .check) (index : s.engine.t = 0#6) : step s = exec .chk s :=
  (step_nil noEvent).trans (engineTurn_check check index)

/-- R66 and R124, the word of `INIT`. -/
theorem step_eq_exec_init (init : s.engine.ph = .init) (index : s.engine.t = 0#6) : step s = exec .init s :=
  (step_nil noEvent).trans (engineTurn_init init index)

/-- R66 and R124, the word of `FIN`. -/
theorem step_eq_exec_fin (final : s.engine.ph = .final) (index : s.engine.t = 0#6) : step s = exec .fin s :=
  (step_nil noEvent).trans (engineTurn_final final index)

end

/-- Settles O21. One case per row of R124: the operation that runs, its own law, and the successor that law leaves. -/
theorem sequencerSuccessors : Obligations.SequencerSuccessors := by
  intro s noEvent
  refine ⟨fun check index => ?check, fun sched loads => ?load, fun sched expands below => ?expand,
    fun sched last => ?lastWord, fun init index => ?init, fun round below => ?round, fun round last => ?lastRound,
    fun final index => ?final⟩
  case check =>
    have runs := step_eq_exec_chk noEvent check index
    exact ⟨runs, _, runs.trans (exec_chk s), rfl, fun valid => if_pos valid, fun invalid => if_neg invalid⟩
  case load =>
    have runs := step_eq_exec_ldw noEvent sched loads
    refine ⟨_, runs, runs.trans (exec_ldw _ s), sched, ?_⟩
    rw [State.withEngine_engine, setWidth_extractLsb'_of_le loads, index_succ_toNat (by omega)]
  case expand =>
    have runs := step_eq_exec_exw noEvent sched expands
    obtain ⟨phase, index⟩ := s.engine.expand_successor_of_lt expands (Nat.lt_succ_of_le below)
    exact ⟨_, runs, runs.trans (exec_exw_of_ge expands s), phase.trans sched, index⟩
  case lastWord =>
    have lastIndex : s.engine.t.toNat = 63 := congrArg BitVec.toNat last
    have expands : 16 ≤ s.engine.t.toNat := by omega
    have runs := step_eq_exec_exw noEvent sched expands
    exact ⟨_, last ▸ runs, runs.trans (exec_exw_of_ge expands s), s.engine.expand_successor_of_last expands lastIndex⟩
  case init =>
    have runs := step_eq_exec_init noEvent init index
    exact ⟨_, runs, runs.trans (exec_init s), rfl, rfl⟩
  case round =>
    have runs := step_eq_exec_rnd noEvent round
    obtain ⟨phase, index⟩ := s.engine.round_successor_of_lt (Nat.lt_succ_of_le below)
    exact ⟨_, runs, runs.trans (exec_rnd _ s), phase.trans round, index⟩
  case lastRound =>
    have runs := step_eq_exec_rnd noEvent round
    exact ⟨_, last ▸ runs, runs.trans (exec_rnd _ s), s.engine.round_successor_of_last (congrArg BitVec.toNat last)⟩
  case final =>
    have runs := step_eq_exec_fin noEvent final index
    exact ⟨_, runs, runs.trans (exec_fin s), rfl, rfl⟩

end Sys2Proof.Machine
end

section
/-! Laws of the host commands (44_transform.md R117 to R120): `NOP` and the reserved opcodes, `PUSH` at every length, `START`
and `CLR` where the phase ignores them; and the statements about them. -/

namespace Sys2Proof

/-- R62 and R67: opcode 0 and the two reserved ones are `NOP`. -/
theorem decodeCommand_of_op_nop {w : BitVec 11} (op : commandOp w = 0#3 ∨ commandOp w = 6#3 ∨ commandOp w = 7#3) :
    decodeCommand w = .nop := by
  rw [decodeCommand]
  rcases op with op | op | op <;> rw [op] <;> rfl

end Sys2Proof

namespace Sys2Proof.Machine

/-! ### NOP -/

/-- R117. -/
theorem exec_nop (s : State) : exec .nop s = .next (s.respond s.engine 0x00#8) := rfl

/-- Settles O22. -/
theorem nopAndReservedChangeNothing : Obligations.NopAndReservedChangeNothing :=
  ⟨exec_nop, fun s _ op => decodeCommand_of_op_nop op ▸ exec_nop s⟩

/-! ### PUSH -/

/-- R116, the rows of `PUSH` and `START`. -/
theorem acceptsInput_iff (ph : Phase) : acceptsInput ph = true ↔ ph = .idle := decide_eq_true_iff

/-- R118, the accepted case. -/
theorem exec_push_of_idle {s : State} (idle : s.engine.ph = .idle) (b : Byte) :
    exec (.push b) s = .next (s.respond (s.engine.pushByte b) 0x00#8) := by
  show execPush b s = _
  rw [execPush, if_pos ((acceptsInput_iff _).mpr idle)]

/-- R118, the ignored case. -/
theorem exec_push_of_not_idle {s : State} (notIdle : s.engine.ph ≠ .idle) (b : Byte) :
    exec (.push b) s = .next (s.respond s.engine 0x00#8) := by
  show execPush b s = _
  rw [execPush, if_neg (mt (acceptsInput_iff _).mp notIdle)]

/-- R118, the frame: `PUSH` changes nothing but `IB` and `LEN`. -/
theorem Engine.pushByte_frame (e : Engine) (b : Byte) :
    e.pushByte b = { e with ib := (e.pushByte b).ib, len := (e.pushByte b).len } :=
  Engine.ext_items rfl rfl (Engine.pushByte_w e b) (Engine.pushByte_r e b) (Engine.pushByte_dg e b)
    (Engine.pushByte_ph e b) (Engine.pushByte_t e b)

/-- R118, a byte of the block. -/
theorem Engine.pushByte_of_lt {e : Engine} (room : e.len.toNat < 64) (b : Byte) :
    e.pushByte b = { e with ib := memWrite1 e.ib e.len.toNat b room, len := e.len + 1#7 } := dif_pos room

/-- R118, the 65th byte. -/
theorem Engine.pushByte_of_full {e : Engine} (full : e.len.toNat = 64) (b : Byte) :
    e.pushByte b = { e with len := 65#7 } := by
  rw [Engine.pushByte, dif_neg (by omega), if_pos ((len_eq_iff_toNat _).mpr full)]

/-- R118, the bytes after the 65th. -/
theorem Engine.pushByte_of_gt {e : Engine} (beyond : 64 < e.len.toNat) (b : Byte) : e.pushByte b = e := by
  rw [Engine.pushByte, dif_neg (by omega), if_neg (mt (len_eq_iff_toNat _).mp (by omega))]

/-- Settles O23. The phase decides whether `PUSH` is accepted, the length what an accepted one does. -/
theorem pushStoresCountsAndSaturates : Obligations.PushStoresCountsAndSaturates := by
  intro s b
  by_cases idle : s.engine.ph = .idle
  · refine ⟨(s.engine.pushByte b).ib, (s.engine.pushByte b).len, ?completes, fun _ room => ?stores, fun _ full => ?counts,
      fun _ beyond => ?saturates, fun notIdle => absurd idle notIdle⟩
    case completes =>
      rw [exec_push_of_idle idle, ← Engine.pushByte_frame]
      rfl
    case stores =>
      rw [Engine.pushByte_of_lt room]
      refine ⟨?_, fun i h => ?_⟩
      · rw [BitVec.toNat_add_of_lt (show s.engine.len.toNat + 1 < 2 ^ 7 by omega)]
        rfl
      · simp only [memWrite1_getElem, eq_comm]
    case counts =>
      rw [Engine.pushByte_of_full full]
      exact ⟨rfl, rfl⟩
    case saturates =>
      rw [Engine.pushByte_of_gt beyond]
      exact ⟨rfl, rfl⟩
  · exact ⟨s.engine.ib, s.engine.len, exec_push_of_not_idle idle b, fun h => absurd h idle, fun h => absurd h idle,
      fun h => absurd h idle, fun _ => ⟨rfl, rfl⟩⟩

/-! ### START and CLR where the phase ignores them -/

/-- R119, the ignored case. -/
theorem exec_start_of_not_idle {s : State} (notIdle : s.engine.ph ≠ .idle) :
    exec .start s = .next (s.respond s.engine 0x00#8) := by
  show execStart s = _
  rw [execStart, if_neg (mt (acceptsInput_iff _).mp notIdle)]

/-- R120, the ignored case. -/
theorem exec_clr_of_busy {s : State} (working : busy s.engine.ph = true) :
    exec .clr s = .next (s.respond s.engine 0x00#8) := by
  show execClr s = _
  rw [execClr, acceptsClear, working, if_neg (by decide)]

/-- Settles O25. -/
theorem clrRestoresTheResetState : Obligations.ClrRestoresTheResetState :=
  ⟨fun s waiting => exec_clr_of_acceptsClear ((acceptsClear_iff s.engine.ph).mpr waiting),
    fun s working => exec_clr_of_busy ((busy_iff s.engine.ph).mpr working)⟩

end Sys2Proof.Machine
end

section
/-! Laws of the status as the host reads it (44_transform.md R121): its value in each phase, and what can happen to an engine
that has stopped; and the statement about them. -/

namespace Sys2Proof.Machine

/-- R26 and R23: in a busy phase `STATUS` is `BUSY` alone. -/
theorem statusOf_of_busy {ph : Phase} (working : busy ph = true) : statusOf ph = 0x02#8 := by
  rcases (busy_iff ph).mp working with rfl | rfl | rfl | rfl | rfl <;> rfl

/-- R125 and R68: if the engine's turn in a waiting phase answers a next state at all, it has changed nothing; with an index
other than 0 it is stuck. -/
theorem eq_of_engineTurn_of_waiting {s t : State}
    (waiting : s.engine.ph = .idle ∨ s.engine.ph = .done ∨ s.engine.ph = .error) (turn : engineTurn s = .next t) : t = s := by
  by_cases index : s.engine.t = 0#6
  · rw [engineTurn_waiting waiting index] at turn
    cases turn
    rfl
  · have stuck : selectMicroOp s.engine.ph s.engine.t = .error .unreachable := by
      rcases waiting with ph | ph | ph <;> rw [ph] <;> exact if_neg index
    rw [engineTurn_eq, stuck] at turn
    cases turn

/-- R116: out of `IDLE`, every command but an accepted `CLR` is answered and leaves the engine as it is. -/
theorem exec_command_of_not_idle {s : State} {w : BitVec 11} (notIdle : s.engine.ph ≠ .idle)
    (notClr : decodeCommand w ≠ .clr) : ∃ v, exec (decodeCommand w) s = .next (s.respond s.engine v) := by
  rcases decodeCommand_cases w with nop | ⟨b, push⟩ | start | clr | rds | ⟨k, rdd⟩
  · exact ⟨_, nop ▸ exec_nop s⟩
  · exact ⟨_, push ▸ exec_push_of_not_idle notIdle b⟩
  · exact ⟨_, start ▸ exec_start_of_not_idle notIdle⟩
  · exact absurd clr notClr
  · exact ⟨_, rds ▸ exec_rds s⟩
  · exact ⟨_, rdd ▸ exec_rdd k s⟩

/-- R121 and R125: no event but an `RST`, a `CLR` or a loss of power changes an engine in `DONE` or `ERROR`. -/
theorem step_keeps_engine_of_over {s t : State} (stepped : step s = .next t) (stopped : s.engine.Over)
    (notRst : s.inputs.head? ≠ some .rst) (notPower : s.inputs.head? ≠ some .power)
    (notClr : ∀ w, s.inputs.head? = some (.cmd w) → decodeCommand w ≠ .clr) : t.engine = s.engine := by
  cases events : s.inputs with
  | nil =>
    rw [step_nil events] at stepped
    rw [eq_of_engineTurn_of_waiting (.inr stopped) stepped]
  | cons x rest =>
    rw [step_cons events] at stepped
    rw [events, List.head?_cons] at notRst notPower
    cases x with
    | cmd w =>
      have notIdle : s.engine.ph ≠ .idle := by rcases stopped with ph | ph <;> rw [ph] <;> decide
      obtain ⟨v, answered⟩ := exec_command_of_not_idle (s := { s with inputs := rest }) notIdle
        (notClr w (by rw [events, List.head?_cons]))
      cases answered.symm.trans stepped
      rfl
    | turn => rw [eq_of_engineTurn_of_waiting (s := { s with inputs := rest }) (.inr stopped) stepped]
    | rst => exact absurd rfl notRst
    | power => exact absurd rfl notPower

/-- Settles O26. -/
theorem rdsAnswersTheStatus : Obligations.RdsAnswersTheStatus := by
  refine ⟨fun s t stepped stopped notRst notPower notClr => ?stays, fun s => ⟨_, exec_rds s, fun idle => ?idle,
    fun working => statusOf_of_busy ((busy_iff _).mpr working), fun done => ?done, fun error => ?error⟩⟩
  case stays => rw [step_keeps_engine_of_over stepped stopped notRst notPower notClr]
  case idle => rw [Engine.status, idle]; rfl
  case done => rw [Engine.status, done]; rfl
  case error => rw [Engine.status, error]; rfl

end Sys2Proof.Machine
end

section
/-! The statement about the `RST` pulse (70_reset_and_hazards.md R160). -/

namespace Sys2Proof.Machine

/-- Settles O2. The step law of the pulse holds of every state: nothing in it looks at the engine. -/
theorem rstPulseResetsAnyEngine : Obligations.RstPulseResetsAnyEngine :=
  fun _ _ pulse => step_of_rst pulse

end Sys2Proof.Machine
end

section
/-! Laws of the two encoding spaces (30_encoding.md): the fields of a word put together again (R61, R65), which word a phase
and an index are (R66), the masks of the opcode table (R72), and that decoder and encoder agree in both directions; and the
statements about them. -/

namespace Sys2Proof

/-! ### Sequencer words -/

theorem Phase.code_ofCode (c : BitVec 3) : (Phase.ofCode c).code = c := by
  revert c
  decide

/-- R65: a sequencer word is its phase and its index. -/
theorem sequencerWord_fields (w : BitVec 9) : sequencerWord (sequencerPhase w) (sequencerIndex w) = w := by
  rw [sequencerWord, sequencerPhase, sequencerIndex, Phase.code_ofCode]
  exact (BitVec.extractLsb'_append_extractLsb'_eq_extractLsb' rfl).trans BitVec.extractLsb'_eq_self

/-- R66: the word of `LDW t` is that of `SCHED` and the index `t`, of which the operand field holds the low four bits. -/
theorem ldw_word {t : BitVec 6} (loads : t.toNat < 16) :
    (0b01000#5 ++ t.extractLsb' 0 4 : BitVec (5 + 4)) = sequencerWord .sched t := by
  apply BitVec.eq_of_toNat_eq
  rw [sequencerWord, Phase.code, BitVec.toNat_append, BitVec.toNat_append, ← Nat.shiftLeft_add_eq_or_of_lt (BitVec.isLt _),
    ← Nat.shiftLeft_add_eq_or_of_lt (BitVec.isLt _), BitVec.extractLsb'_toNat, Nat.shiftRight_zero, Nat.mod_eq_of_lt loads]
  rfl

/-- R66, read backwards: what a phase and an index select is well formed, and its word is theirs. -/
theorem encode_of_selectMicroOp {ph : Phase} {t : BitVec 6} {i : Instr} (selected : selectMicroOp ph t = .ok i) :
    i.WellFormed ∧ i.space = .seq ∧ encode i = .seq (sequencerWord ph t) := by
  rcases selectMicroOp_cases selected with ⟨rfl, rfl, rfl⟩ | ⟨rfl, loads, rfl⟩ | ⟨rfl, expands, rfl⟩ | ⟨rfl, rfl, rfl⟩ |
    ⟨rfl, rfl⟩ | ⟨rfl, rfl, rfl⟩
  · exact ⟨rfl, rfl, rfl⟩
  · exact ⟨rfl, rfl, congrArg EncodedWord.seq (ldw_word loads)⟩
  · exact ⟨decide_eq_true expands, rfl, rfl⟩
  · exact ⟨rfl, rfl, rfl⟩
  · exact ⟨rfl, rfl, rfl⟩
  · exact ⟨rfl, rfl, rfl⟩

/-- R66: every micro-operation of the table is selected by some phase and index. -/
theorem exists_selectMicroOp {i : Instr} (wellFormed : i.WellFormed) (space : i.space = .seq) :
    ∃ ph t, selectMicroOp ph t = .ok i := by
  cases i with
  | nop | push | start | clr | rds | rdd => cases space
  | chk => exact ⟨.check, 0#6, rfl⟩
  | ldw t =>
    have widened : (t.setWidth 6).toNat = t.toNat := BitVec.toNat_setWidth_of_le (by decide)
    have operand : (t.setWidth 6).extractLsb' 0 4 = t := by
      apply BitVec.eq_of_toNat_eq
      rw [BitVec.extractLsb'_toNat, widened, Nat.shiftRight_zero, Nat.mod_eq_of_lt t.isLt]
    exact ⟨.sched, t.setWidth 6, by rw [selectMicroOp, if_pos (widened ▸ t.isLt), operand]⟩
  | exw t => exact ⟨.sched, t, if_neg (Nat.not_lt.mpr (of_decide_eq_true wellFormed))⟩
  | init => exact ⟨.init, 0#6, rfl⟩
  | rnd t => exact ⟨.round, t, rfl⟩
  | fin => exact ⟨.final, 0#6, rfl⟩

/-- R66: in `SCHED` and `ROUND` every index selects a micro-operation. -/
theorem exists_selectMicroOp_of_indexed {ph : Phase} (indexed : ph = .sched ∨ ph = .round) (t : BitVec 6) :
    ∃ i, selectMicroOp ph t = .ok i := by
  rcases indexed with rfl | rfl
  · by_cases loads : t.toNat < 16
    · exact ⟨_, if_pos loads⟩
    · exact ⟨_, if_neg loads⟩
  · exact ⟨_, rfl⟩

/-! ### Command words -/

/-- R61: a command word is its opcode and its data. -/
theorem commandWord_fields (w : BitVec 11) : (commandOp w ++ commandByte w : BitVec (3 + 8)) = w :=
  (BitVec.extractLsb'_append_extractLsb'_eq_extractLsb' rfl).trans BitVec.extractLsb'_eq_self

/-- R63: the data of shape `CK` are three ignored bits and the index. -/
theorem commandByte_fields (w : BitVec 11) : (w.extractLsb' 5 3 ++ commandIndex w : BitVec (3 + 5)) = commandByte w :=
  BitVec.extractLsb'_append_extractLsb'_eq_extractLsb' rfl

/-- R61: what is left of a command word without its data. -/
theorem and_opMask (w : BitVec 11) : w &&& 0x700#11 = (commandOp w ++ 0#8 : BitVec (3 + 8)) := by
  have mask : 0x700#11 = (BitVec.allOnes 3 ++ 0#8 : BitVec (3 + 8)) := by decide
  conv_lhs => rw [← commandWord_fields w, mask]
  rw [BitVec.and_append, BitVec.and_allOnes, BitVec.and_zero]

/-- R63: what is left of a command word of shape `CK` without `data[7:5]`. -/
theorem and_opIndexMask (w : BitVec 11) :
    w &&& 0x71F#11 = (commandOp w ++ (0#3 ++ commandIndex w : BitVec (3 + 5)) : BitVec (3 + 8)) := by
  have mask : 0x71F#11 = (BitVec.allOnes 3 ++ (0#3 ++ BitVec.allOnes 5 : BitVec (3 + 5)) : BitVec (3 + 8)) := by decide
  conv_lhs => rw [← commandWord_fields w, ← commandByte_fields w, mask]
  rw [BitVec.and_append, BitVec.and_append, BitVec.and_allOnes, BitVec.and_allOnes, BitVec.and_zero]

/-- R62, the word of `RDD k`: an opcode and a data byte like every command's. -/
theorem rdd_word (k : BitVec 5) :
    (0b101#3 ++ 0b000#3 ++ k : BitVec (3 + 3 + 5)) = (0b101#3 ++ (0b000#3 ++ k : BitVec (3 + 5)) : BitVec (3 + 8)) :=
  BitVec.append_assoc

/-- R61: the index of the word of `RDD k`. -/
theorem commandIndex_rdd_word (k : BitVec 5) : commandIndex (0b101#3 ++ 0b000#3 ++ k : BitVec (3 + 3 + 5)) = k :=
  BitVec.extractLsb'_append_eq_right

/-- R62, the row of `PUSH`. -/
theorem decodeCommand_of_op_one {w : BitVec 11} (op : commandOp w = 1#3) : decodeCommand w = .push (commandByte w) := by
  rw [decodeCommand, op]
  rfl

/-- R62, the row of `START`. -/
theorem decodeCommand_of_op_two {w : BitVec 11} (op : commandOp w = 2#3) : decodeCommand w = .start := by
  rw [decodeCommand, op]
  rfl

/-- R62, the row of `CLR`. -/
theorem decodeCommand_of_op_three {w : BitVec 11} (op : commandOp w = 3#3) : decodeCommand w = .clr := by
  rw [decodeCommand, op]
  rfl

/-- R61: the eight opcodes. -/
theorem commandOp_cases (w : BitVec 11) : commandOp w = 0#3 ∨ commandOp w = 1#3 ∨ commandOp w = 2#3 ∨ commandOp w = 3#3 ∨
    commandOp w = 4#3 ∨ commandOp w = 5#3 ∨ commandOp w = 6#3 ∨ commandOp w = 7#3 := by
  generalize commandOp w = c
  revert c
  decide

/-- R60: a command word decodes to an operation of the command space. -/
theorem decodeCommand_wellFormed (w : BitVec 11) : (decodeCommand w).WellFormed ∧ (decodeCommand w).space = .cmd := by
  rcases decodeCommand_cases w with h | ⟨b, h⟩ | h | h | h | ⟨k, h⟩ <;> rw [h] <;> exact ⟨rfl, rfl⟩

/-- R62: the word of a command has one of the six opcodes that are not reserved. -/
theorem encode_of_space_cmd {i : Instr} (space : i.space = .cmd) : ∃ w, encode i = .cmd w ∧ (commandOp w).toNat ≤ 5 := by
  cases i with
  | chk | ldw | exw | init | rnd | fin => cases space
  | nop | start | clr | rds => exact ⟨_, rfl, by decide⟩
  | push b => exact ⟨_, rfl, by rw [commandOp_append]; decide⟩
  | rdd k => exact ⟨_, rfl, by rw [rdd_word, commandOp_append]; decide⟩

/-! ### Decoder and encoder -/

/-- Settles O12. A micro-operation is what some phase and index select, and its word is theirs; a command is one of six. -/
theorem decodeOfEncodeIsIdentity : Obligations.DecodeOfEncodeIsIdentity := by
  intro i wellFormed
  cases space : i.space with
  | seq =>
    obtain ⟨ph, t, selected⟩ := exists_selectMicroOp wellFormed space
    obtain ⟨-, -, word⟩ := encode_of_selectMicroOp selected
    rw [word, decode, decodeSequencer_sequencerWord, selected]
  | cmd =>
    cases i with
    | chk | ldw | exw | init | rnd | fin => cases space
    | nop | start | clr | rds => rfl
    | push b => rw [encode, decode, decodeCommand_of_op_one (commandOp_append _ b), commandByte_append]
    | rdd k =>
      have op : commandOp (0b101#3 ++ 0b000#3 ++ k : BitVec (3 + 3 + 5)) = 5#3 := by rw [rdd_word, commandOp_append]
      rw [encode, decode, decodeCommand_of_op_five op, commandIndex_rdd_word]

/-- Settles O13. -/
theorem sequencerWordsHaveOneMeaning : Obligations.SequencerWordsHaveOneMeaning := by
  intro w i decoded
  obtain ⟨wellFormed, space, word⟩ := encode_of_selectMicroOp decoded
  exact ⟨wellFormed, space, word.trans (congrArg EncodedWord.seq (sequencerWord_fields w))⟩

/-- Settles O14. -/
theorem commandWordsUpToIgnoredBits : Obligations.CommandWordsUpToIgnoredBits := by
  intro w
  obtain ⟨wellFormed, space⟩ := decodeCommand_wellFormed w
  refine ⟨decodeCommand w, rfl, wellFormed, space, fun op => ?push, fun op => ?rdd, fun op => ?noOperand, fun op => ?reserved⟩
  case push =>
    rw [decodeCommand_of_op_one op, encode, ← op, commandWord_fields]
  case rdd =>
    rw [decodeCommand_of_op_five op, encode, rdd_word, and_opIndexMask, op]
  case noOperand =>
    rw [and_opMask]
    rcases op with op | op | op | op
    · rw [decodeCommand_of_op_nop (.inl op), op]; rfl
    · rw [decodeCommand_of_op_two op, op]; rfl
    · rw [decodeCommand_of_op_three op, op]; rfl
    · rw [decodeCommand_of_op_four op, op]; rfl
  case reserved => exact decodeCommand_of_op_nop (.inr op)

/-- Settles O16. Each word is decoded by evaluation. -/
theorem wordsOfTheTableDecode : Obligations.WordsOfTheTableDecode := by
  unfold Obligations.WordsOfTheTableDecode
  decide

/-! ### The opcode table -/

/-- The `j` bits from bit `k` up, cut out by a mask as the table writes it (R72). -/
theorem land_mask (x j k : Nat) : x &&& (2 ^ j - 1) * 2 ^ k = x / 2 ^ k % 2 ^ j * 2 ^ k := by
  apply Nat.eq_of_testBit_eq
  intro i
  rw [Nat.testBit_and, Nat.testBit_mul_two_pow, Nat.testBit_mul_two_pow, Nat.testBit_mod_two_pow, Nat.testBit_div_two_pow,
    Nat.testBit_two_pow_sub_one]
  by_cases above : k ≤ i
  · simp [above, Bool.and_comm]
  · simp [above]

/-- R72, the command rows: the mask 0x700 leaves the opcode, and the rows stand in its order. -/
theorem firstRow_cmd (w : BitVec 11) : firstRow (.cmd w) = (opcodeTable.take 6)[(commandOp w).toNat]? := by
  have masked : w.toNat &&& 0x700 = (commandOp w).toNat * 256 := by
    rw [commandOp, BitVec.extractLsb'_toNat, Nat.shiftRight_eq_div_pow]
    exact land_mask w.toNat 3 8
  rcases commandOp_cases w with op | op | op | op | op | op | op | op <;> rw [op] at masked ⊢ <;>
    simp [firstRow, opcodeTable, OpcodeRow.selects, EncodedWord.bits, EncodedWord.space, masked]

/-- R72: a word that selects a row lies in its space and has the row's pattern under the row's mask. -/
theorem OpcodeRow.selects_iff (row : OpcodeRow) (x : EncodedWord) :
    row.selects x = true ↔ row.space = x.space ∧ x.bits &&& row.mask = row.pattern := by
  rw [OpcodeRow.selects, Bool.and_eq_true, decide_eq_true_iff, beq_iff_eq]

/-- R65 and R66: the words whose phase code is that of `SCHED` or of `ROUND` name a micro-operation. -/
theorem exists_decodeSequencer_of_phaseCode {w : BitVec 9} {p : Phase} (indexed : p = .sched ∨ p = .round)
    (masked : w.toNat &&& 0x1C0 = p.code.toNat * 64) : ∃ i, decodeSequencer w = .ok i := by
  have code : w.extractLsb' 6 3 = p.code := by
    apply BitVec.eq_of_toNat_eq
    have field : w.toNat &&& 0x1C0 = w.toNat / 64 % 8 * 64 := land_mask w.toNat 3 6
    rw [BitVec.extractLsb'_toNat, Nat.shiftRight_eq_div_pow]
    omega
  rw [decodeSequencer, sequencerPhase, code, Phase.ofCode_code]
  exact exists_selectMicroOp_of_indexed indexed _

/-- R72, the sequencer rows: a word that selects one of them names a micro-operation. The full mask leaves one word, the
other two masks the phase or more. -/
theorem exists_decodeSequencer_of_firstRow {w : BitVec 9} {row : OpcodeRow} (first : firstRow (.seq w) = some row) :
    ∃ i, decodeSequencer w = .ok i := by
  have listed : row ∈ opcodeTable := List.mem_of_find?_eq_some first
  obtain ⟨space, masked⟩ := (row.selects_iff (.seq w)).mp (List.find?_some (p := fun r : OpcodeRow => r.selects (.seq w)) first)
  have oneWord {n : Nat} (full : w.toNat &&& 0x1FF = n) : w = BitVec.ofNat 9 n := by
    rw [← full, Nat.and_two_pow_sub_one_of_lt_two_pow (n := 9) w.isLt, BitVec.ofNat_toNat, BitVec.setWidth_eq]
  simp only [opcodeTable, List.mem_append, List.mem_cons, List.not_mem_nil, or_false] at listed
  rcases listed with cmdRow | rfl | rfl | rfl | rfl | rfl | rfl
  · rcases cmdRow with rfl | rfl | rfl | rfl | rfl | rfl <;> cases space
  · exact ⟨.chk, by rw [oneWord masked]; rfl⟩
  · have ldw : w.toNat / 16 % 32 * 16 = 0x080 := (land_mask w.toNat 5 4).symm.trans masked
    have phase : w.toNat &&& 0x1C0 = w.toNat / 64 % 8 * 64 := land_mask w.toNat 3 6
    exact exists_decodeSequencer_of_phaseCode (p := .sched) (.inl rfl) (show _ = 2 * 64 by omega)
  · exact exists_decodeSequencer_of_phaseCode (.inl rfl) masked
  · exact ⟨.init, by rw [oneWord masked]; rfl⟩
  · exact exists_decodeSequencer_of_phaseCode (.inr rfl) masked
  · exact ⟨.fin, by rw [oneWord masked]; rfl⟩

/-- R72: the word of a well-formed operation has that operation's row as its first one. -/
theorem firstRow_encode {i : Instr} (wellFormed : i.WellFormed) :
    (firstRow (encode i)).map OpcodeRow.mnemonic = some i.mnemonic := by
  have rowMatch : Laws.RowMatch.Statement i := by
    cases i with
    | nop => exact Laws.RowMatch.nop
    | push b => exact Laws.RowMatch.push b
    | start => exact Laws.RowMatch.start
    | clr => exact Laws.RowMatch.clr
    | rds => exact Laws.RowMatch.rds
    | rdd k => exact Laws.RowMatch.rdd k
    | chk => exact Laws.RowMatch.chk
    | ldw t => exact Laws.RowMatch.ldw t
    | exw t => exact Laws.RowMatch.exw t
    | init => exact Laws.RowMatch.init
    | rnd t => exact Laws.RowMatch.rnd t
    | fin => exact Laws.RowMatch.fin
  exact (rowMatch wellFormed).2

/-- R72, the command space: the first row names the command, and a word without a row is a reserved one. -/
theorem firstRow_cmd_mnemonic (w : BitVec 11) :
    (firstRow (.cmd w) = none ∧ decodeCommand w = .nop) ∨
      (firstRow (.cmd w)).map OpcodeRow.mnemonic = some (decodeCommand w).mnemonic := by
  rw [firstRow_cmd]
  rcases commandOp_cases w with op | op | op | op | op | op | op
  · exact .inr (by rw [decodeCommand_of_op_nop (.inl op), op]; rfl)
  · exact .inr (by rw [decodeCommand_of_op_one op, op]; rfl)
  · exact .inr (by rw [decodeCommand_of_op_two op, op]; rfl)
  · exact .inr (by rw [decodeCommand_of_op_three op, op]; rfl)
  · exact .inr (by rw [decodeCommand_of_op_four op, op]; rfl)
  · exact .inr (by rw [decodeCommand_of_op_five op, op]; rfl)
  · exact .inl ⟨by rcases op with op | op <;> rw [op] <;> rfl, decodeCommand_of_op_nop (.inr op)⟩

/-- Settles O15. -/
theorem decoderFollowsTheFirstRow : Obligations.DecoderFollowsTheFirstRow := by
  rintro (w | w)
  · refine ⟨fun row first => ⟨decodeCommand w, rfl, ?named⟩, fun noRow => ⟨fun _ => ?reserved, nofun⟩⟩
    case named =>
      rcases firstRow_cmd_mnemonic w with ⟨noRow, -⟩ | named
      · cases noRow.symm.trans first
      · rw [first] at named
        exact (Option.some.inj named).symm
    case reserved =>
      rcases firstRow_cmd_mnemonic w with ⟨-, nop⟩ | named
      · rw [decode, nop]
      · rw [noRow] at named
        cases named
  · refine ⟨fun row first => ?named, fun noRow => ⟨nofun, fun _ => ?nothing⟩⟩
    case named =>
      obtain ⟨i, decoded⟩ := exists_decodeSequencer_of_firstRow first
      obtain ⟨wellFormed, -, word⟩ := sequencerWordsHaveOneMeaning w i decoded
      have named := firstRow_encode wellFormed
      rw [word, first] at named
      exact ⟨i, decoded, (Option.some.inj named).symm⟩
    case nothing =>
      cases decoded : decode (.seq w) with
      | error e => exact ⟨e, rfl⟩
      | ok i =>
        obtain ⟨wellFormed, -, word⟩ := sequencerWordsHaveOneMeaning w i decoded
        have named := firstRow_encode wellFormed
        rw [word, noRow] at named
        cases named

end Sys2Proof

namespace Sys2Proof.Machine

/-! ### The assembler -/

/-- R62 and R71: a command is issued as its one canonical word, which is not a reserved one. -/
theorem issue_of_space_cmd {i : Instr} (wellFormed : i.WellFormed) (space : i.space = .cmd) :
    ∃ w, encode i = .cmd w ∧ decode (.cmd w) = .ok i ∧ (commandOp w).toNat ≤ 5 ∧ issue i = [.cmd w] := by
  obtain ⟨w, word, op⟩ := encode_of_space_cmd space
  exact ⟨w, word, word ▸ decodeOfEncodeIsIdentity i wellFormed, op, by rw [issue, word]⟩

/-- R70: the parts of a line that are accepted are the `RST` pulse or a command that is issued. -/
theorem assembleParts_ok {parts : List (List Char)} {xs : List Input} (accepted : assembleParts parts = .ok xs) :
    xs = [.rst] ∨ ∃ i : Instr, i.WellFormed ∧ i.space = .cmd ∧ xs = issue i := by
  unfold assembleParts at accepted
  split at accepted
  case h_1 => cases accepted; exact .inr ⟨.nop, rfl, rfl, rfl⟩
  case h_2 => cases accepted; exact .inr ⟨.start, rfl, rfl, rfl⟩
  case h_3 => cases accepted; exact .inr ⟨.clr, rfl, rfl, rfl⟩
  case h_4 => cases accepted; exact .inr ⟨.rds, rfl, rfl, rfl⟩
  case h_5 => cases accepted; exact .inl rfl
  case h_6 =>
    split at accepted
    · cases accepted
    · split at accepted <;> cases accepted
      exact .inr ⟨.push _, rfl, rfl, rfl⟩
  case h_7 =>
    split at accepted
    · cases accepted
    · split at accepted <;> cases accepted
      exact .inr ⟨.rdd _, rfl, rfl, rfl⟩
  all_goals cases accepted

/-- Settles O60. -/
theorem assemblerEmitsCanonicalWords : Obligations.AssemblerEmitsCanonicalWords := by
  refine ⟨fun line xs accepted => ?emits, fun x n value above => ?push, fun x n value above => ?rdd⟩
  case emits =>
    rcases assembleParts_ok accepted with rst | ⟨i, wellFormed, space, rfl⟩
    · exact .inl rst
    · obtain ⟨w, word, decoded, op, issued⟩ := issue_of_space_cmd wellFormed space
      exact .inr ⟨i, w, space, word, decoded, op, issued⟩
  case push =>
    simp only [assembleParts, value, if_neg (Nat.not_le.mpr above)]
  case rdd =>
    simp only [assembleParts, value, if_neg (Nat.not_le.mpr above)]

end Sys2Proof.Machine
end

section
/-! Laws of the word and memory primitives (00_scope.md R8, R13, R14), of the round as a map of the registers (42_rounds.md R104,
R105), of the schedule's recurrence (41_schedule.md R90) and of the digest (43_finalizer.md R113); and the statements about them. -/

namespace Sys2Proof.Machine

/-! ### Words and bytes -/

/-- Settles O4. -/
theorem addIsModularAndAssociative : Obligations.AddIsModularAndAssociative :=
  ⟨add32_toNat, BitVec.add_assoc, BitVec.add_comm⟩

/-- R13's own inference, one way: the four slices side by side are the word. -/
theorem be32_bytes32 (x : Word) : be32 (bytes32 x)[0] (bytes32 x)[1] (bytes32 x)[2] (bytes32 x)[3] = x := by
  apply BitVec.eq_of_toNat_eq
  simp only [be32_toNat, bytes32_getElem_toNat]
  omega

/-- R13's own inference, the other way: each slice is the byte packed there. -/
theorem bytes32_be32 (b0 b1 b2 b3 : Byte) : bytes32 (be32 b0 b1 b2 b3) = #v[b0, b1, b2, b3] := by
  apply Vector.ext
  intro j hj
  apply BitVec.eq_of_toNat_eq
  rw [bytes32_getElem_toNat _ hj, be32_toNat]
  have index_cases : j = 0 ∨ j = 1 ∨ j = 2 ∨ j = 3 := by omega
  rcases index_cases with rfl | rfl | rfl | rfl <;> simp <;> omega

/-- Settles O7. -/
theorem bigEndianRoundTrip : Obligations.BigEndianRoundTrip := ⟨be32_bytes32, bytes32_be32⟩

/-- R13: no two words have the same bytes. -/
theorem bytes32_injective : Function.Injective bytes32 := by
  intro x y same
  rw [← be32_bytes32 x, same, be32_bytes32]

/-- Settles O8. -/
theorem memoryPrimitives : Obligations.MemoryPrimitives := by
  refine fun n S addr => ⟨fun h v => ⟨rfl, ?_, fun i hi other => ?_⟩, fun h x => ⟨rfl, fun j hj => ?_, fun i hi outside => ?_⟩⟩
  · rw [memWrite1_getElem, if_pos rfl]
  · rw [memWrite1_getElem, if_neg other.symm]
  · rw [memWrite4_getElem, dif_pos ⟨Nat.le_add_right addr j, Nat.add_lt_add_left hj addr⟩]
    simp only [Nat.add_sub_cancel_left]
    exact bytes32_getElem_toNat x hj
  · rw [memWrite4_getElem, dif_neg (by omega)]

/-! ### The round -/

/-- Two banks of registers are equal when `a` to `h` are (R21). -/
theorem registers_ext {r r' : Vector Word 8} (a : r[0] = r'[0]) (b : r[1] = r'[1]) (c : r[2] = r'[2]) (d : r[3] = r'[3])
    (e : r[4] = r'[4]) (f : r[5] = r'[5]) (g : r[6] = r'[6]) (h : r[7] = r'[7]) : r = r' := by
  refine Vector.ext fun i hi => ?_
  have index_cases : i = 0 ∨ i = 1 ∨ i = 2 ∨ i = 3 ∨ i = 4 ∨ i = 5 ∨ i = 6 ∨ i = 7 := by omega
  rcases index_cases with rfl | rfl | rfl | rfl | rfl | rfl | rfl | rfl <;> assumption

/-- Settles O37. Register by register: what a later assignment reads, no earlier one has written. -/
theorem roundInOrderAgrees : Obligations.RoundInOrderAgrees := by
  intro r k w
  apply registers_ext <;> simp [roundStepInOrder, roundStep, regA, regB, regC, regD, regE, regF, regG]

/-- R105: the new `a` without `temp2`, which the registers that only move give, is `temp1`. -/
theorem roundStep_sub_temp2 (r : Vector Word 8) (k w : Word) :
    (roundStep r k w)[0] - (bsig0 (roundStep r k w)[1] + maj (roundStep r k w)[1] (roundStep r k w)[2] (roundStep r k w)[3]) =
      temp1 r k w :=
  add_sub_cancel_right (temp1 r k w) (temp2 r)

/-- R105, the other way: the recovered `h` gives the `temp1` from which it was recovered. -/
theorem temp1_roundUndo (r : Vector Word 8) (k w : Word) :
    temp1 (roundUndo r k w) k w = r[0] - (bsig0 r[1] + maj r[1] r[2] r[3]) := by
  simp only [temp1, add32, roundUndo, regE, regF, regG, regH, Vector.getElem_mk, List.getElem_toArray, List.getElem_cons_succ,
    List.getElem_cons_zero]
  abel

theorem temp2_roundUndo (r : Vector Word 8) (k w : Word) :
    temp2 (roundUndo r k w) = bsig0 r[1] + maj r[1] r[2] r[3] := rfl

/-- Settles O38. Six registers only move; the other two are sums of which all terms but one are known. -/
theorem roundIsOneToOne : Obligations.RoundIsOneToOne := by
  refine fun r k w => ⟨registers_ext rfl rfl rfl ?oldD rfl rfl rfl ?oldH, registers_ext ?newA rfl rfl rfl ?newE rfl rfl rfl⟩
  case oldD =>
    show (roundStep r k w)[4] - (_ - _) = r[3]
    rw [roundStep_sub_temp2]
    exact add_sub_cancel_right r[3] (temp1 r k w)
  case oldH =>
    show (roundStep r k w)[0] - _ - bsig1 r[4] - ch r[4] r[5] r[6] - k - w = r[7]
    rw [roundStep_sub_temp2]
    simp only [temp1, add32, regE, regF, regG, regH]
    abel
  case newA =>
    show add32 (temp1 _ k w) (temp2 _) = r[0]
    rw [temp1_roundUndo, temp2_roundUndo]
    exact sub_add_cancel _ _
  case newE =>
    show add32 (r[4] - (r[0] - _)) (temp1 _ k w) = r[4]
    rw [temp1_roundUndo]
    exact sub_add_cancel _ _

/-! ### The schedule -/

/-- R90: every word of the schedule is the one that `scheduleNext` gives from the words before it. -/
theorem schedule_getElem (B : Vector Byte 64) {t : Nat} (h : t < 64) : (schedule B)[t] = scheduleNext B (schedule B) t h := by
  have last := scheduleUpTo_getElem B (n := t + 1) h t h
  rw [if_pos (Nat.lt_succ_self t)] at last
  rw [← last, scheduleUpTo_succ B t h, Vector.getElem_set_self]
  refine scheduleNext_congr h fun i hi below => ?_
  rw [scheduleUpTo_getElem B (Nat.le_of_lt h), if_pos below]

/-- Settles O52. -/
theorem scheduleMeetsItsRecurrence : Obligations.ScheduleMeetsItsRecurrence := by
  intro B
  constructor
  · intro t h
    rw [schedule_getElem B (by omega), scheduleNext, dif_pos h]
  · intro t lo hi
    rw [schedule_getElem B hi, scheduleNext, dif_neg (Nat.not_lt.mpr lo)]
    rfl

/-! ### The digest -/

/-- R113: equal digests come from equal registers: the groups are equal, so the words, and `H[k]` cancels. -/
theorem digest_injective : Function.Injective digest := by
  intro r r' same
  apply Vector.ext
  intro k hk
  have groups : digestGroup r k hk = digestGroup r' k hk := by
    apply Vector.ext
    intro j hj
    have at_byte (q : Vector Word 8) : (digest q)[4 * k + j] = (digestGroup q k hk)[j] := by
      have group : (4 * k + j) / 4 = k := by omega
      have byte : (4 * k + j) % 4 = j := by omega
      simp only [digest_getElem, group, byte]
    rw [← at_byte r, ← at_byte r', same]
  exact add_left_cancel (bytes32_injective groups)

end Sys2Proof.Machine
end

section
/-! The characterisation of the constant tables (40_constants.md section 3): the first 64 primes, and which bits of their roots the
tables hold; and the statement about them. -/

namespace Sys2Proof.Machine

/-- The first 64 primes. -/
def firstPrimes : Vector Nat 64 :=
  #v[2, 3, 5, 7, 11, 13, 17, 19, 23, 29, 31, 37, 41, 43, 47, 53, 59, 61, 67, 71, 73, 79, 83, 89, 97, 101, 103, 107, 109, 113, 127,
    131, 137, 139, 149, 151, 157, 163, 167, 173, 179, 181, 191, 193, 197, 199, 211, 223, 227, 229, 233, 239, 241, 251, 257, 263,
    269, 271, 277, 281, 283, 293, 307, 311]

/-- Up to 311, the members of the list are the primes: each number is divided by every smaller one. -/
theorem mem_firstPrimes_iff {q : Nat} (small : q ≤ 311) : q ∈ firstPrimes ↔ q.Prime := by
  have byDivision : ∀ n, n < 312 → (n ∈ firstPrimes ↔ 2 ≤ n ∧ ∀ m, 2 ≤ m → m < n → ¬ m ∣ n) := by decide +kernel
  rw [Nat.prime_def_lt']
  exact byDivision q (Nat.lt_succ_of_le small)

theorem firstPrimes_le {i : Nat} (h : i < 64) : firstPrimes[i] ≤ 311 := by
  revert i
  decide

theorem firstPrimes_strictMono {i j : Nat} (hi : i < 64) (hj : j < 64) (below : i < j) : firstPrimes[i] < firstPrimes[j] := by
  have sorted : firstPrimes.toList.Pairwise (· < ·) := by decide
  exact List.pairwise_iff_getElem.mp sorted i j hi hj below

/-- `x` holds the 32 bits behind the point of the `d`-th root of `p`: with `m` for the bits before the point, the root times
`2^32` lies from `m * 2^32 + x` up to the next number. -/
def HoldsRootFraction (d p : Nat) (x : Word) : Prop :=
  ∃ m, m < 7 ∧ (m * 2 ^ 32 + x.toNat) ^ d ≤ p * 2 ^ (32 * d) ∧ p * 2 ^ (32 * d) < (m * 2 ^ 32 + x.toNat + 1) ^ d

/-- The root as the statement gives it. -/
theorem HoldsRootFraction.exists_root {d p : Nat} {x : Word} (holds : HoldsRootFraction d p x) :
    ∃ n, n ^ d ≤ p * 2 ^ (32 * d) ∧ p * 2 ^ (32 * d) < (n + 1) ^ d ∧ x.toNat = n % 2 ^ 32 := by
  obtain ⟨m, -, lower, upper⟩ := holds
  exact ⟨_, lower, upper, by rw [Nat.mul_add_mod_self_right, Nat.mod_eq_of_lt x.isLt]⟩

theorem romH_holds_squareRoots : ∀ k, (h : k < 8) → HoldsRootFraction 2 firstPrimes[k] romH[k] := by
  unfold HoldsRootFraction
  decide +kernel

theorem romK_holds_cubeRoots : ∀ t, (h : t < 64) → HoldsRootFraction 3 firstPrimes[t] romK[t] := by
  unfold HoldsRootFraction
  decide +kernel

/-- Settles O11. -/
theorem constantsComeFromThePrimes : Obligations.ConstantsComeFromThePrimes := by
  refine ⟨firstPrimes, fun i h => ?prime, fun i j hi hj => firstPrimes_strictMono hi hj, fun q prime small => ?noGap,
    fun k h => (romH_holds_squareRoots k h).exists_root, fun t h => (romK_holds_cubeRoots t h).exists_root⟩
  case prime => exact (mem_firstPrimes_iff (firstPrimes_le h)).mp (Vector.getElem_mem h)
  case noGap => exact Vector.getElem_of_mem ((mem_firstPrimes_iff small).mpr prime)

end Sys2Proof.Machine
end

section
/-! What one step does, as a function of the engine and of the event (20_memory.md R47): a command's engine and answer
(44_transform.md R116 to R122), the engine's turn (R124, R125), the pulse and power; and that `step` is this function wherever
`SEQ` is not an unreachable word (30_encoding.md R68). -/

namespace Sys2Proof.Machine

/-! ### A command -/

/-- The engine that a command leaves (R116 to R122). -/
def Engine.afterCommand (e : Engine) : Instr → Engine
  | .push b => if e.ph = .idle then e.pushByte b else e
  | .start => if e.ph = .idle then e.goto .check 0#6 else e
  | .clr => if busy e.ph then e else Engine.reset
  | _ => e

/-- The response to a command (R64): a read answers what it reads, any other command 0x00. -/
def Engine.answer (e : Engine) : Instr → Byte
  | .rds => e.status
  | .rdd k => e.dg[k.toNat]
  | _ => 0x00#8

theorem exec_of_space_cmd {i : Instr} (space : i.space = .cmd) (s : State) :
    exec i s = .next (s.respond (s.engine.afterCommand i) (s.engine.answer i)) := by
  cases i with
  | chk | ldw | exw | init | rnd | fin => cases space
  | nop | rds | rdd => rfl
  | push b =>
    by_cases idle : s.engine.ph = .idle
    · rw [exec_push_of_idle idle, Engine.afterCommand, if_pos idle]; rfl
    · rw [exec_push_of_not_idle idle, Engine.afterCommand, if_neg idle]; rfl
  | start =>
    by_cases idle : s.engine.ph = .idle
    · show execStart s = _
      rw [execStart, if_pos ((acceptsInput_iff _).mpr idle), Engine.afterCommand, if_pos idle]; rfl
    · rw [exec_start_of_not_idle idle, Engine.afterCommand, if_neg idle]; rfl
  | clr =>
    by_cases working : busy s.engine.ph = true
    · rw [exec_clr_of_busy working, Engine.afterCommand, if_pos working]; rfl
    · rw [exec_clr_of_acceptsClear (by simpa [acceptsClear] using working), Engine.afterCommand, if_neg working]; rfl

/-- R116: out of `IDLE`, every command but an accepted `CLR` leaves the engine as it is. -/
theorem Engine.afterCommand_of_not_idle {e : Engine} (notIdle : e.ph ≠ .idle) {i : Instr}
    (clrLost : i = .clr → busy e.ph = true) : e.afterCommand i = e := by
  cases i with
  | push b => exact if_neg notIdle
  | start => exact if_neg notIdle
  | clr => exact if_pos (clrLost rfl)
  | _ => rfl

/-- R116, R120: out of `IDLE` a command is an accepted `CLR`, or it leaves the engine as it is. -/
theorem Engine.afterCommand_cases_of_not_idle {e : Engine} (notIdle : e.ph ≠ .idle) (i : Instr) :
    (i = .clr ∧ ¬ busy e.ph = true ∧ e.afterCommand i = Engine.reset) ∨
      ((i = .clr → busy e.ph = true) ∧ e.afterCommand i = e) := by
  by_cases accepted : i = .clr ∧ ¬ busy e.ph = true
  · obtain ⟨rfl, notBusy⟩ := accepted
    exact .inl ⟨rfl, notBusy, if_neg notBusy⟩
  · have clrLost : i = .clr → busy e.ph = true := fun clr => Classical.not_not.mp fun notBusy => accepted ⟨clr, notBusy⟩
    exact .inr ⟨clrLost, Engine.afterCommand_of_not_idle notIdle clrLost⟩

/-- R23: the phases that are not busy are the waiting ones. -/
theorem not_busy_iff (ph : Phase) : ¬ busy ph = true ↔ ph = .idle ∨ ph = .done ∨ ph = .error := by
  cases ph <;> decide

theorem ne_idle_of_busy {ph : Phase} (working : busy ph = true) : ph ≠ .idle := by
  rintro rfl
  cases working

/-- R116, R170: a busy engine loses every command. -/
theorem Engine.afterCommand_of_busy {e : Engine} (working : busy e.ph = true) (i : Instr) : e.afterCommand i = e :=
  Engine.afterCommand_of_not_idle (ne_idle_of_busy working) fun _ => working

/-! ### The engine's turn -/

/-- The engine after its turn (R124, R125), in each phase. In `SCHED` the two operations do the same: they extend the
schedule by the word of their index (R88 to R90). -/
def Engine.advance (e : Engine) : Engine :=
  match e.ph with
  | .check => e.goto (if e.len = 64#7 then .sched else .error) 0#6
  | .sched => { e with w := scheduleExtend e.ib e.t.toNat e.w, ph := if e.t.toNat < 63 then .sched else .init, t := e.t + 1#6 }
  | .init => { e with r := romH, ph := .round, t := 0#6 }
  | .round => e.round e.t
  | .final => e.finalize
  | .idle => e
  | .done => e
  | .error => e

theorem Engine.advance_of_check {e : Engine} (phase : e.ph = .check) :
    e.advance = e.goto (if e.len = 64#7 then .sched else .error) 0#6 := by rw [Engine.advance, phase]

theorem Engine.advance_of_sched {e : Engine} (phase : e.ph = .sched) :
    e.advance = { e with w := scheduleExtend e.ib e.t.toNat e.w, ph := if e.t.toNat < 63 then .sched else .init, t := e.t + 1#6 } := by
  rw [Engine.advance, phase]

theorem Engine.advance_of_init {e : Engine} (phase : e.ph = .init) :
    e.advance = { e with r := romH, ph := .round, t := 0#6 } := by rw [Engine.advance, phase]

theorem Engine.advance_of_round {e : Engine} (phase : e.ph = .round) : e.advance = e.round e.t := by
  rw [Engine.advance, phase]

theorem Engine.advance_of_final {e : Engine} (phase : e.ph = .final) : e.advance = e.finalize := by
  rw [Engine.advance, phase]

/-- R125: a waiting engine has no step. -/
theorem Engine.advance_of_waiting {e : Engine} (waiting : e.ph = .idle ∨ e.ph = .done ∨ e.ph = .error) : e.advance = e := by
  rcases waiting with phase | phase | phase <;> rw [Engine.advance, phase]

/-- R29, R27: the engine's turn never writes `IB` or `LEN`, in any phase. -/
theorem Engine.advance_input (e : Engine) : e.advance.ib = e.ib ∧ e.advance.len = e.len := by
  cases phase : e.ph with
  | idle => rw [Engine.advance_of_waiting (.inl phase)]; exact ⟨rfl, rfl⟩
  | check => rw [Engine.advance_of_check phase]; exact ⟨rfl, rfl⟩
  | sched => rw [Engine.advance_of_sched phase]; exact ⟨rfl, rfl⟩
  | init => rw [Engine.advance_of_init phase]; exact ⟨rfl, rfl⟩
  | round => rw [Engine.advance_of_round phase]; exact ⟨Engine.round_ib e e.t, Engine.round_len e e.t⟩
  | final => rw [Engine.advance_of_final phase]; exact ⟨rfl, rfl⟩
  | done => rw [Engine.advance_of_waiting (.inr (.inl phase))]; exact ⟨rfl, rfl⟩
  | error => rw [Engine.advance_of_waiting (.inr (.inr phase))]; exact ⟨rfl, rfl⟩

/-- `SEQ` is not one of the unreachable words: I1 of R34. -/
def Engine.Regular (e : Engine) : Prop := e.ph ≠ .sched → e.ph ≠ .round → e.t = 0#6

/-- R68: outside `SCHED` and `ROUND` an index other than 0 is unreachable. -/
theorem selectMicroOp_unreachable_iff (ph : Phase) (t : BitVec 6) :
    selectMicroOp ph t = .error .unreachable ↔ ph ≠ .sched ∧ ph ≠ .round ∧ t ≠ 0#6 := by
  by_cases index : t = 0#6
  · subst index
    cases ph <;> decide
  · cases ph
    case sched => by_cases loads : t.toNat < 16 <;> simp [selectMicroOp, loads]
    all_goals simp [selectMicroOp, index]

theorem Engine.not_regular_iff (e : Engine) : ¬ e.Regular ↔ selectMicroOp e.ph e.t = .error .unreachable := by
  rw [selectMicroOp_unreachable_iff, Engine.Regular]
  push Not
  rfl

/-- R88 in terms of the schedule: `LDW` extends it by the word of its index. -/
theorem set_blockWord_eq_scheduleExtend (ib : Vector Byte 64) (w : Vector Word 64) {t : BitVec 6} (loads : t.toNat < 16) :
    w.set (t.extractLsb' 0 4).toNat (blockWord ib (t.extractLsb' 0 4)) (by omega) = scheduleExtend ib t.toNat w := by
  have index : (t.extractLsb' 0 4).toNat = t.toNat := by
    rw [BitVec.extractLsb'_toNat, Nat.shiftRight_zero, Nat.mod_eq_of_lt loads]
  rw [scheduleExtend, dif_pos t.isLt, scheduleNext, dif_pos loads]
  simp only [blockWord, memRead4, index]

/-- R89 in terms of the schedule: `EXW` extends it by the word of its index. -/
theorem set_expandWord_eq_scheduleExtend (ib : Vector Byte 64) (w : Vector Word 64) {t : BitVec 6} (lo : 16 ≤ t.toNat) :
    w.set t.toNat (expandWord w t.toNat lo t.isLt) = scheduleExtend ib t.toNat w := by
  rw [scheduleExtend, dif_pos t.isLt, scheduleNext, dif_neg (Nat.not_lt.mpr lo)]

/-- R24: the index wraps to 0 behind 63. -/
theorem index_succ_of_last {t : BitVec 6} (last : ¬ t.toNat < 63) : t + 1#6 = 0#6 := by
  have : t = 63#6 := BitVec.eq_of_toNat_eq (by show t.toNat = 63; omega)
  rw [this]
  rfl

/-- R103 as one record: the index wraps to 0 behind 63. -/
theorem Engine.advance_of_round_eq {e : Engine} (round : e.ph = .round) :
    e.advance = { e with
      r := roundStep e.r (roundConstant e.t) (scheduleWord e.w e.t)
      ph := if e.t.toNat < 63 then .round else .final
      t := e.t + 1#6 } := by
  rw [Engine.advance_of_round round]
  refine Engine.ext_items (by simp) (by simp) (by simp) (by simp) (by simp) (by simp [round]) ?_
  rw [Engine.round_t]
  split
  · rfl
  · next last => exact (index_succ_of_last last).symm

/-- R124, R125: where `SEQ` is not an unreachable word, the turn advances the engine and touches nothing else. -/
theorem engineTurn_of_regular {s : State} (regular : s.engine.Regular) : engineTurn s = .next (s.withEngine s.engine.advance) := by
  cases phase : s.engine.ph with
  | idle | done | error =>
    have waiting : s.engine.ph = .idle ∨ s.engine.ph = .done ∨ s.engine.ph = .error := by rw [phase]; decide
    rw [engineTurn_waiting waiting (regular (by simp [phase]) (by simp [phase])), Engine.advance_of_waiting waiting]
    rfl
  | check =>
    rw [engineTurn_check phase (regular (by simp [phase]) (by simp [phase])), Engine.advance_of_check phase]
    exact exec_chk s
  | init =>
    rw [engineTurn_init phase (regular (by simp [phase]) (by simp [phase])), Engine.advance_of_init phase]
    rfl
  | final =>
    rw [engineTurn_final phase (regular (by simp [phase]) (by simp [phase])), Engine.advance_of_final phase]
    rfl
  | round =>
    rw [engineTurn_round phase, Engine.advance_of_round phase]
    rfl
  | sched =>
    by_cases loads : s.engine.t.toNat < 16
    · rw [engineTurn_ldw phase loads, Engine.advance_of_sched phase, execLdw, if_pos (by omega),
        set_blockWord_eq_scheduleExtend _ _ loads, setWidth_extractLsb'_of_le (Nat.le_of_lt_succ loads), ← phase]
    · have lo : 16 ≤ s.engine.t.toNat := Nat.le_of_not_lt loads
      rw [engineTurn_exw phase lo, Engine.advance_of_sched phase]
      congr 2
      refine Engine.ext_items (by simp) (by simp) ?_ (by simp) (by simp) (by simp [phase]) ?_
      · simp only [Engine.expand_w]
        exact set_expandWord_eq_scheduleExtend _ _ lo
      · rw [Engine.expand_t]
        split
        · rfl
        · next last => exact (index_succ_of_last last).symm

/-- R68: at an unreachable word the engine is stuck. -/
theorem engineTurn_of_not_regular {s : State} (stuck : ¬ s.engine.Regular) : engineTurn s = .fault .stuckSequencer := by
  rw [engineTurn_eq, (Engine.not_regular_iff _).mp stuck]

/-! ### A step -/

/-- The event of the next step: the first one that waits, and the engine's turn if none does (log entry 1). -/
def State.event (s : State) : Input := s.inputs.head?.getD .turn

/-- The state after an event (R47). -/
def State.after (s : State) : Input → State
  | .cmd w => s.respond (s.engine.afterCommand (decodeCommand w)) (s.engine.answer (decodeCommand w))
  | .turn => s.withEngine s.engine.advance
  | .rst => s.withEngine Engine.reset
  | .power => applyPower s

/-- The state after the next event, which is used up. -/
def State.next (s : State) : State := { s with inputs := s.inputs.tail }.after s.event

section
variable {s : State}

theorem State.event_nil (h : s.inputs = []) : s.event = .turn := by rw [State.event, h]; rfl

theorem State.event_cons {x : Input} {rest : List Input} (h : s.inputs = x :: rest) : s.event = x := by
  rw [State.event, h]; rfl

/-- An event other than the turn comes from the list. -/
theorem State.head?_of_event {x : Input} (h : s.event = x) (notTurn : x ≠ .turn) : s.inputs.head? = some x := by
  cases waiting : s.inputs with
  | nil => exact absurd (h.symm.trans (State.event_nil waiting)) notTurn
  | cons y rest => rw [← h, State.event_cons waiting]; rfl

theorem State.event_ne_of_head? {x : Input} (h : s.inputs.head? ≠ some x) (notTurn : x ≠ .turn) : s.event ≠ x :=
  fun event => h (State.head?_of_event event notTurn)

theorem State.next_of_cmd {w : BitVec 11} (h : s.event = .cmd w) :
    s.next = ⟨s.engine.afterCommand (decodeCommand w), s.inputs.tail, s.engine.answer (decodeCommand w) :: s.resps, s.powerUps⟩ := by
  rw [State.next, h]; rfl

theorem State.next_of_turn (h : s.event = .turn) : s.next = ⟨s.engine.advance, s.inputs.tail, s.resps, s.powerUps⟩ := by
  rw [State.next, h]; rfl

theorem State.next_of_rst (h : s.event = .rst) : s.next = ⟨Engine.reset, s.inputs.tail, s.resps, s.powerUps⟩ := by
  rw [State.next, h]; rfl

@[simp] theorem State.next_inputs (s : State) : s.next.inputs = s.inputs.tail := by
  rw [State.next]
  cases s.event <;> rfl

/-- The meaning of an event, where the engine is not asked for a turn at an unreachable word. -/
theorem takeInput_eq_after {x : Input} (regular : x = .turn → s.engine.Regular) : takeInput x s = .next (s.after x) := by
  cases x with
  | cmd w => exact exec_of_space_cmd (decodeCommand_wellFormed w).2 s
  | turn => exact engineTurn_of_regular (regular rfl)
  | rst => rfl
  | power => rfl

theorem step_eq_takeInput (s : State) : step s = takeInput s.event { s with inputs := s.inputs.tail } := by
  cases waiting : s.inputs with
  | nil =>
    rw [step_nil waiting, State.event_nil waiting, List.tail_nil, ← waiting]
    rfl
  | cons x rest => rw [step_cons waiting, State.event_cons waiting, List.tail_cons]

/-- A step is `State.next`, where the engine is not asked for a turn at an unreachable word. -/
theorem step_eq_next (regular : s.event = .turn → s.engine.Regular) : step s = .next s.next := by
  rw [step_eq_takeInput]
  exact takeInput_eq_after regular

/-- R68: asked for a turn at an unreachable word, the machine stops with the one fault. -/
theorem step_eq_fault (turn : s.event = .turn) (stuck : ¬ s.engine.Regular) : step s = .fault .stuckSequencer := by
  rw [step_eq_takeInput, turn]
  exact engineTurn_of_not_regular stuck

/-- What a step that answers a next state has done. -/
theorem eq_next_of_step {t : State} (stepped : step s = .next t) : t = s.next := by
  by_cases regular : s.event = .turn → s.engine.Regular
  · cases (step_eq_next regular).symm.trans stepped
    rfl
  · obtain ⟨turn, stuck⟩ := Classical.not_imp.mp regular
    cases (step_eq_fault turn stuck).symm.trans stepped

end

end Sys2Proof.Machine
end

section
/-! The invariant of the reachable states (10_state.md R34, log entry 10): what it says in each phase, that it holds at reset and
that every step keeps it; and the statements about it. -/

namespace Sys2Proof.Machine

/-! ### The invariant, phase by phase -/

theorem eq_replicate_iff_getElem {α : Type} {n : Nat} {v : Vector α n} {a : α} :
    v = Vector.replicate n a ↔ ∀ i, (h : i < n) → v[i] = a := by
  simp [Vector.ext_iff]

/-- An engine that has computed nothing: the input so far, and all else as at reset (I1, I2, I4 to I6). -/
structure Engine.Fresh (e : Engine) : Prop where
  index : e.t = 0#6
  bounded : e.len.toNat ≤ 65
  unfilled : ∀ i, (h : i < 64) → e.len.toNat ≤ i → e.ib[i] = 0#8
  w : e.w = Engine.reset.w
  r : e.r = Engine.reset.r
  dg : e.dg = Engine.reset.dg

/-- `Engine.Sound` read phase by phase: how far the computation on the block has come. -/
def Engine.Progress (e : Engine) : Prop :=
  match e.ph with
  | .idle => e.Fresh
  | .check => e.Fresh
  | .error => e.Fresh ∧ e.len ≠ 64#7
  | .sched => e.len = 64#7 ∧ e.dg = Engine.reset.dg ∧ e.w = scheduleUpTo e.ib e.t.toNat
  | .init => e.t = 0#6 ∧ e.len = 64#7 ∧ e.dg = Engine.reset.dg ∧ e.w = schedule e.ib
  | .round => e.len = 64#7 ∧ e.dg = Engine.reset.dg ∧ e.w = schedule e.ib ∧ e.r = roundsUpTo (schedule e.ib) e.t.toNat
  | .final => e.t = 0#6 ∧ e.len = 64#7 ∧ e.dg = Engine.reset.dg ∧ e.w = schedule e.ib ∧ e.r = rounds (schedule e.ib)
  | .done => e.t = 0#6 ∧ e.len = 64#7 ∧ e.dg = compress e.ib ∧ e.w = schedule e.ib ∧ e.r = rounds (schedule e.ib)

/-- I4: before `DONE` the digest is zero. -/
theorem Engine.ReachableShape.dg_zero {e : Engine} (shape : e.ReachableShape) (notDone : e.ph ≠ .done) : e.dg = Engine.reset.dg :=
  eq_replicate_iff_getElem.mpr (shape.i4 notDone)

theorem Engine.ReachableShape.fresh {e : Engine} (shape : e.ReachableShape)
    (phase : e.ph = .idle ∨ e.ph = .check ∨ e.ph = .error) : e.Fresh := by
  obtain ⟨w, r, dg⟩ := shape.nothing_computed phase
  have index : e.t = 0#6 := by rcases phase with h | h | h <;> exact shape.i1 (by simp [h]) (by simp [h])
  exact ⟨index, shape.i2, shape.i5, w, r, dg⟩

theorem Engine.Sound.progress {e : Engine} (sound : e.Sound) : e.Progress := by
  have shape := sound.toReachableShape
  unfold Engine.Progress
  cases phase : e.ph with
  | idle => exact shape.fresh (.inl phase)
  | check => exact shape.fresh (.inr (.inl phase))
  | error => exact ⟨shape.fresh (.inr (.inr phase)), shape.i7 phase⟩
  | sched =>
    refine ⟨shape.i3 (by simp [phase]), shape.dg_zero (by simp [phase]), Vector.ext fun i h => ?_⟩
    rw [shape.i8 phase i h, scheduleUpTo_getElem _ (by omega)]
  | init =>
    exact ⟨shape.i1 (by simp [phase]) (by simp [phase]), shape.i3 (by simp [phase]), shape.dg_zero (by simp [phase]),
      sound.full (.inl phase)⟩
  | round =>
    exact ⟨shape.i3 (by simp [phase]), shape.dg_zero (by simp [phase]), sound.full (by simp [phase]), sound.mixing phase⟩
  | final =>
    exact ⟨shape.i1 (by simp [phase]) (by simp [phase]), shape.i3 (by simp [phase]), shape.dg_zero (by simp [phase]),
      sound.full (by simp [phase]), sound.mixed (.inl phase)⟩
  | done =>
    exact ⟨shape.i1 (by simp [phase]) (by simp [phase]), shape.i3 (by simp [phase]), shape.i9 phase, sound.full (by simp [phase]),
      sound.mixed (.inr phase)⟩

/-- In the phases of a fresh engine the clauses on the computation say nothing. -/
theorem Engine.Fresh.sound {e : Engine} (fresh : e.Fresh) (phase : e.ph = .idle ∨ e.ph = .check ∨ e.ph = .error)
    (invalid : e.ph = .error → e.len ≠ 64#7) : e.Sound := by
  have notComputing : ¬ (e.ph = .sched ∨ e.ph = .init ∨ e.ph = .round ∨ e.ph = .final ∨ e.ph = .done) := by
    rcases phase with h | h | h <;> rw [h] <;> decide
  exact {
    i1 := fun _ _ => fresh.index
    i2 := fresh.bounded
    i3 := fun h => absurd h notComputing
    i4 := fun _ => eq_replicate_iff_getElem.mp fresh.dg
    i5 := fresh.unfilled
    i6 := fun _ => ⟨eq_replicate_iff_getElem.mp fresh.w, eq_replicate_iff_getElem.mp fresh.r⟩
    i7 := invalid
    i8 := fun h => absurd (.inl h) notComputing
    i9 := fun h => absurd (.inr (.inr (.inr (.inr h)))) notComputing
    full := fun h => absurd (.inr h) notComputing
    mixing := fun h => absurd (.inr (.inr (.inl h))) notComputing
    mixed := fun h => absurd (.inr (.inr (.inr h))) notComputing }

/-- With 64 bytes accepted, the clauses on the input hold (I2, I3, I5, I7); what is left is the computation. -/
theorem Engine.sound_of_full_block {e : Engine} (len : e.len = 64#7)
    (phase : e.ph ≠ .idle ∧ e.ph ≠ .check ∧ e.ph ≠ .error)
    (i1 : e.Regular) (dg : e.dg = if e.ph = .done then compress e.ib else Engine.reset.dg)
    (w : e.w = if e.ph = .sched then scheduleUpTo e.ib e.t.toNat else schedule e.ib)
    (mixing : e.ph = .round → e.r = roundsUpTo (schedule e.ib) e.t.toNat)
    (mixed : e.ph = .final ∨ e.ph = .done → e.r = rounds (schedule e.ib)) : e.Sound where
  i1 := i1
  i2 := by rw [len]; decide
  i3 _ := len
  i4 notDone := eq_replicate_iff_getElem.mp (dg.trans (if_neg notDone))
  i5 i h beyond := by
    rw [len] at beyond
    exact absurd beyond (Nat.not_le.mpr h)
  i6 h := by
    obtain ⟨idle, check, error⟩ := phase
    rcases h with h | h | h <;> contradiction
  i7 error := absurd error phase.2.2
  i8 sched i h := by rw [w, if_pos sched, scheduleUpTo_getElem _ (by omega)]
  i9 done := dg.trans (if_pos done)
  full h := w.trans (if_neg (by rcases h with h | h | h | h <;> simp [h]))
  mixing := mixing
  mixed := mixed

theorem Engine.Progress.sound {e : Engine} (progress : e.Progress) : e.Sound := by
  unfold Engine.Progress at progress
  cases phase : e.ph with
  | idle => exact Engine.Fresh.sound (by simpa only [phase] using progress) (.inl phase) (by simp [phase])
  | check => exact Engine.Fresh.sound (by simpa only [phase] using progress) (.inr (.inl phase)) (by simp [phase])
  | error =>
    simp only [phase] at progress
    exact progress.1.sound (.inr (.inr phase)) fun _ => progress.2
  | sched =>
    simp only [phase] at progress
    obtain ⟨len, dg, w⟩ := progress
    exact Engine.sound_of_full_block len (by simp [phase]) (fun h => absurd phase h) (by simp [phase, dg]) (by simp [phase, w])
      (by simp [phase]) (by simp [phase])
  | init =>
    simp only [phase] at progress
    obtain ⟨t, len, dg, w⟩ := progress
    exact Engine.sound_of_full_block len (by simp [phase]) (fun _ _ => t) (by simp [phase, dg]) (by simp [phase, w])
      (by simp [phase]) (by simp [phase])
  | round =>
    simp only [phase] at progress
    obtain ⟨len, dg, w, r⟩ := progress
    exact Engine.sound_of_full_block len (by simp [phase]) (fun _ h => absurd phase h) (by simp [phase, dg]) (by simp [phase, w])
      (fun _ => r) (by simp [phase])
  | final =>
    simp only [phase] at progress
    obtain ⟨t, len, dg, w, r⟩ := progress
    exact Engine.sound_of_full_block len (by simp [phase]) (fun _ _ => t) (by simp [phase, dg]) (by simp [phase, w])
      (by simp [phase]) fun _ => r
  | done =>
    simp only [phase] at progress
    obtain ⟨t, len, dg, w, r⟩ := progress
    exact Engine.sound_of_full_block len (by simp [phase]) (fun _ _ => t) (by simp [phase, dg]) (by simp [phase, w])
      (by simp [phase]) fun _ => r

/-! ### Reset and the host's commands -/

theorem Engine.reset_fresh : Engine.reset.Fresh where
  index := rfl
  bounded := by decide
  unfilled _ h _ := Vector.getElem_replicate h
  w := rfl
  r := rfl
  dg := rfl

/-- Settles O47. -/
theorem soundAtReset : Obligations.SoundAtReset := Engine.reset_fresh.sound (.inl rfl) nofun

/-- R118 keeps the bytes from `LEN` on zero, and `LEN` at most 65. -/
theorem Engine.Fresh.pushByte {e : Engine} (fresh : e.Fresh) (b : Byte) : (e.pushByte b).Fresh := by
  have input : (e.pushByte b).len.toNat ≤ 65 ∧
      ∀ i, (h : i < 64) → (e.pushByte b).len.toNat ≤ i → (e.pushByte b).ib[i] = 0#8 := by
    rcases Nat.lt_trichotomy e.len.toNat 64 with room | full | beyond
    · rw [Engine.pushByte_of_lt room]
      have len : (e.len + 1#7).toNat = e.len.toNat + 1 := BitVec.toNat_add_of_lt (show e.len.toNat + 1 < 2 ^ 7 by omega)
      refine ⟨by rw [len]; omega, fun i h unfilled => ?_⟩
      rw [len] at unfilled
      rw [memWrite1_getElem, if_neg (by omega), fresh.unfilled i h (by omega)]
    · rw [Engine.pushByte_of_full full]
      exact ⟨Nat.le_refl 65, fun i h beyond => absurd (show 65 ≤ i from beyond) (by omega)⟩
    · rw [Engine.pushByte_of_gt beyond]
      exact ⟨fresh.bounded, fresh.unfilled⟩
  exact ⟨(e.pushByte_t b).trans fresh.index, input.1, input.2, (e.pushByte_w b).trans fresh.w, (e.pushByte_r b).trans fresh.r,
    (e.pushByte_dg b).trans fresh.dg⟩

/-- R119: a `START` computes nothing. -/
theorem Engine.Fresh.start {e : Engine} (fresh : e.Fresh) : (e.goto .check 0#6).Fresh :=
  ⟨rfl, fresh.bounded, fresh.unfilled, fresh.w, fresh.r, fresh.dg⟩

/-- R116 to R122: every command keeps the invariant. -/
theorem Engine.Sound.afterCommand {e : Engine} (sound : e.Sound) (i : Instr) : (e.afterCommand i).Sound := by
  by_cases idle : e.ph = .idle
  · have fresh := sound.toReachableShape.fresh (.inl idle)
    cases i with
    | push b =>
      rw [Engine.afterCommand, if_pos idle]
      have phase : (e.pushByte b).ph = .idle := (e.pushByte_ph b).trans idle
      exact (fresh.pushByte b).sound (.inl phase) fun error => nomatch phase.symm.trans error
    | start =>
      rw [Engine.afterCommand, if_pos idle]
      exact fresh.start.sound (.inr (.inl rfl)) nofun
    | clr =>
      rw [Engine.afterCommand, idle]
      exact soundAtReset
    | _ => exact sound
  · rcases Engine.afterCommand_cases_of_not_idle idle i with ⟨-, -, cleared⟩ | ⟨-, kept⟩
    · rw [cleared]
      exact soundAtReset
    · rw [kept]
      exact sound

/-! ### The engine's turn -/

/-- R112, R113: the loop of `FIN` writes the digest, whatever `DG` held before. -/
theorem writeDigest_eq_digest (dg : Vector Byte 32) (r : Vector Word 8) : writeDigest dg r = digest r :=
  Vector.ext fun i h => by rw [writeDigest_getElem, digest_getElem]

/-- R105: one more round, with the constant and the schedule word of its index. -/
theorem roundStep_roundsUpTo (w : Vector Word 64) (t : BitVec 6) :
    roundStep (roundsUpTo w t.toNat) (roundConstant t) (scheduleWord w t) = roundsUpTo w (t.toNat + 1) :=
  (roundsUpTo_succ w t.toNat t.isLt).symm

/-- R124: every turn of the engine brings the computation on the block to its next point. -/
theorem Engine.Progress.advance {e : Engine} (progress : e.Progress) : e.advance.Progress := by
  cases phase : e.ph with
  | idle => rwa [Engine.advance_of_waiting (.inl phase)]
  | done => rwa [Engine.advance_of_waiting (.inr (.inl phase))]
  | error => rwa [Engine.advance_of_waiting (.inr (.inr phase))]
  | check =>
    simp only [Engine.Progress, phase] at progress
    rw [Engine.advance_of_check phase]
    by_cases valid : e.len = 64#7
    · rw [if_pos valid]
      exact show _ ∧ _ ∧ _ from ⟨valid, progress.dg, progress.w⟩
    · rw [if_neg valid]
      exact show _ ∧ _ from ⟨⟨rfl, progress.bounded, progress.unfilled, progress.w, progress.r, progress.dg⟩, valid⟩
  | sched =>
    simp only [Engine.Progress, phase] at progress
    obtain ⟨len, dg, w⟩ := progress
    rw [Engine.advance_of_sched phase, w]
    by_cases below : e.t.toNat < 63
    · rw [if_pos below]
      refine show _ ∧ _ ∧ _ from ⟨len, dg, ?_⟩
      rw [index_succ_toNat below]
      rfl
    · rw [if_neg below]
      have last : e.t.toNat = 63 := by omega
      refine show _ ∧ _ ∧ _ ∧ _ from ⟨index_succ_of_last below, len, dg, ?_⟩
      rw [last]
      rfl
  | init =>
    simp only [Engine.Progress, phase] at progress
    obtain ⟨-, len, dg, w⟩ := progress
    rw [Engine.advance_of_init phase]
    exact show _ ∧ _ ∧ _ ∧ _ from ⟨len, dg, w, rfl⟩
  | round =>
    simp only [Engine.Progress, phase] at progress
    obtain ⟨len, dg, w, r⟩ := progress
    rw [Engine.advance_of_round_eq phase, r, w, roundStep_roundsUpTo]
    by_cases below : e.t.toNat < 63
    · rw [if_pos below]
      refine show _ ∧ _ ∧ _ ∧ _ from ⟨len, dg, rfl, ?_⟩
      rw [index_succ_toNat below]
    · rw [if_neg below]
      have last : e.t.toNat = 63 := by omega
      refine show _ ∧ _ ∧ _ ∧ _ ∧ _ from ⟨index_succ_of_last below, len, dg, rfl, ?_⟩
      rw [last]
      rfl
  | final =>
    simp only [Engine.Progress, phase] at progress
    obtain ⟨-, len, -, w, r⟩ := progress
    rw [Engine.advance_of_final phase]
    refine show _ ∧ _ ∧ _ ∧ _ ∧ _ from ⟨rfl, len, ?_, w, r⟩
    rw [Engine.finalize_dg, writeDigest_eq_digest, r]
    rfl

/-- R34 for one step of any kind but power. -/
theorem State.next_sound {s : State} (sound : s.engine.Sound) (notPower : s.event ≠ .power) : s.next.engine.Sound := by
  cases event : s.event with
  | cmd w => rw [State.next_of_cmd event]; exact sound.afterCommand _
  | turn => rw [State.next_of_turn event]; exact sound.progress.advance.sound
  | rst => rw [State.next_of_rst event]; exact soundAtReset
  | power => exact absurd event notPower

/-- Settles O48. -/
theorem stepKeepsSound : Obligations.StepKeepsSound := by
  intro s t sound notPower stepped
  rw [eq_next_of_step stepped]
  exact State.next_sound sound (State.event_ne_of_head? notPower (by decide))

/-! ### What the invariant gives -/

/-- Settles O49. I1 is what shuts out the unreachable words. -/
theorem soundEngineAlwaysSteps : Obligations.SoundEngineAlwaysSteps :=
  fun s sound => ⟨s.next, step_eq_next fun _ => sound.i1⟩

/-- A list of events without power has none at its head and none behind it. -/
theorem State.noPower_next {s : State} (noPower : .power ∉ s.inputs) : s.event ≠ .power ∧ .power ∉ s.next.inputs := by
  refine ⟨fun power => noPower (List.mem_of_mem_head? (State.head?_of_event power nofun)), ?_⟩
  rw [State.next_inputs]
  exact fun power => noPower (List.mem_of_mem_tail power)

/-- The invariant holds after any number of steps over events without power, and no step stops. -/
theorem exists_runSteps_of_sound (n : Nat) {s : State} (sound : s.engine.Sound) (noPower : .power ∉ s.inputs) :
    ∃ t, runSteps n s = .next t ∧ t.engine.Sound := by
  induction n generalizing s with
  | zero => exact ⟨s, rfl, sound⟩
  | succ n ih =>
    rw [runSteps_succ_of_step (step_eq_next fun _ => sound.i1)]
    obtain ⟨notPower, noPower'⟩ := State.noPower_next noPower
    exact ih (State.next_sound sound notPower) noPower'

/-- Settles O50. -/
theorem reachableStatesSatisfyI1ToI9 : Obligations.ReachableStatesSatisfyI1ToI9 := by
  intro xs n noPower
  obtain ⟨t, run, sound⟩ := exists_runSteps_of_sound n (s := { State.reset with inputs := xs }) soundAtReset noPower
  exact ⟨t, run, sound.toReachableShape⟩

/-- Settles O51. I4 is the whole reason. -/
theorem noPartialResultBeforeDone : Obligations.NoPartialResultBeforeDone := by
  intro s k sound notDone
  rw [exec_rdd, sound.i4 notDone k.toNat k.isLt]
  rfl

end Sys2Proof.Machine
end

section
/-! The statements about single steps and single operations: what runs (20_memory.md R47, 44_transform.md R124, R125), what each
phase accepts (R116), who writes what (10_state.md R20), how a phase is entered and left (60_exceptions.md R145, 44_transform.md
R125), what the path depends on (10_state.md R33), and the unreachable words (30_encoding.md R68). -/

namespace Sys2Proof.Machine

/-! ### What runs -/

/-- Settles O18. -/
theorem stepRunsTheSelectedMicroOp : Obligations.StepRunsTheSelectedMicroOp := by
  intro s i (selected : decodeSequencer s.engine.seq = .ok i)
  have turn (u : State) (same : u.engine = s.engine) : engineTurn u = exec i u := by rw [engineTurn, same, selected]
  exact ⟨fun noEvent => (step_nil noEvent).trans (turn s rfl), fun rest event => (step_cons event).trans (turn _ rfl)⟩

/-- Settles O19. -/
theorem stepRunsThePresentedCommand : Obligations.StepRunsThePresentedCommand :=
  fun _ w _ event => ⟨decodeCommand w, rfl, (decodeCommand_wellFormed w).1, step_cons event⟩

/-- Settles O20. -/
theorem waitingPhasesHaveNoEngineStep : Obligations.WaitingPhasesHaveNoEngineStep := by
  intro s waiting index
  exact ⟨fun noEvent => (step_nil noEvent).trans (engineTurn_waiting waiting index),
    fun rest event => (step_cons event).trans (engineTurn_waiting (s := { s with inputs := rest }) waiting index)⟩

/-- Settles O3. The first step leaves what power gives, the second leaves nothing of it. -/
theorem rstAfterPowerUpGivesTheResetState : Obligations.RstAfterPowerUpGivesTheResetState := by
  intro s rest events
  have powered : step s = .next (applyPower { s with inputs := .rst :: rest }) := step_cons events
  have pulsed := step_of_rst (s := applyPower { s with inputs := .rst :: rest }) rfl
  exact ⟨_, (runSteps_succ_of_step powered 1).trans (runSteps_succ_of_step pulsed 0), rfl, rfl, rfl⟩

/-- Settles O27. -/
theorem rddAnswersTheDigestByte : Obligations.RddAnswersTheDigestByte :=
  ⟨fun s k => exec_rdd k s, fun s w op => by rw [decodeCommand_of_op_five op]; exact exec_rdd (commandIndex w) s⟩

/-- Settles O34. -/
theorem exwBelowSixteenIsRefused : Obligations.ExwBelowSixteenIsRefused := by
  intro s t below
  have outside : ¬ 16 ≤ t.toNat := Nat.not_le.mpr below
  exact ⟨dif_neg outside, fun wellFormed => outside (of_decide_eq_true wellFormed)⟩

/-! ### What each phase accepts -/

/-- R120: an accepted `CLR` gives the reset engine. -/
theorem Engine.afterCommand_clr_of_waiting {e : Engine} (waiting : e.ph = .idle ∨ e.ph = .done ∨ e.ph = .error) :
    e.afterCommand .clr = Engine.reset := if_neg ((not_busy_iff e.ph).mpr waiting)

/-- Settles O30. -/
theorem commandAcceptanceByPhase : Obligations.CommandAcceptanceByPhase := by
  intro s w
  refine ⟨_, exec_of_space_cmd (decodeCommand_wellFormed w).2 s, fun op notIdle => ?ignored,
    fun op notIdle notDone notError => ?lost, fun op => ?nop, fun op => ?read, fun op idle room => ?counted,
    fun op idle => ?started, fun op waiting => ?cleared⟩
  case ignored =>
    rcases op with op | op
    · rw [decodeCommand_of_op_one op, Engine.afterCommand_of_not_idle (i := .push _) notIdle nofun]; rfl
    · rw [decodeCommand_of_op_two op, Engine.afterCommand_of_not_idle (i := .start) notIdle nofun]; rfl
  case lost =>
    have working : busy s.engine.ph = true := Classical.not_not.mp fun notBusy =>
      ((not_busy_iff _).mp notBusy).elim notIdle (·.elim notDone notError)
    rw [decodeCommand_of_op_three op, Engine.afterCommand_of_busy working]
    rfl
  case nop => rw [decodeCommand_of_op_nop op]; rfl
  case read =>
    rcases op with op | op
    · rw [decodeCommand_of_op_four op]; rfl
    · rw [decodeCommand_of_op_five op]; rfl
  case counted =>
    rw [decodeCommand_of_op_one op, State.respond_engine, Engine.afterCommand, if_pos idle, Engine.pushByte_of_lt room]
    exact BitVec.toNat_add_of_lt (show s.engine.len.toNat + 1 < 2 ^ 7 by omega)
  case started =>
    rw [decodeCommand_of_op_two op, State.respond_engine, Engine.afterCommand, if_pos idle]
    rfl
  case cleared =>
    rw [decodeCommand_of_op_three op, State.respond_engine]
    exact Engine.afterCommand_clr_of_waiting waiting

/-- R124: no turn of the engine leads to `IDLE`. -/
theorem Engine.advance_ph_ne_idle {e : Engine} (notIdle : e.ph ≠ .idle) : e.advance.ph ≠ .idle := by
  cases phase : e.ph with
  | idle => exact absurd phase notIdle
  | check => rw [Engine.advance_of_check phase, Engine.goto_ph]; split <;> decide
  | sched => rw [Engine.advance_of_sched phase]; dsimp only; split <;> decide
  | init => rw [Engine.advance_of_init phase]; exact nofun
  | round => rw [Engine.advance_of_round phase, Engine.round_ph, phase]; split <;> decide
  | final => rw [Engine.advance_of_final phase]; exact nofun
  | done => rw [Engine.advance_of_waiting (.inr (.inl phase))]; exact notIdle
  | error => rw [Engine.advance_of_waiting (.inr (.inr phase))]; exact notIdle

/-- Settles O24. -/
theorem startEntersCheck : Obligations.StartEntersCheck := by
  refine ⟨fun s idle => ⟨s.engine.goto .check 0#6, ?accepted, rfl, ?notReady, ?busy⟩, fun s notIdle => exec_start_of_not_idle notIdle,
    fun s t stepped notIdle notRst notPower clrLost => ?frozen⟩
  case accepted =>
    rw [exec_of_space_cmd rfl, Engine.afterCommand, if_pos idle]
    rfl
  case notReady => show (statusOf .check).getLsbD 0 = false; decide
  case busy => show (statusOf .check).getLsbD 1 = true; decide
  case frozen =>
    rw [eq_next_of_step stepped]
    cases event : s.event with
    | cmd w =>
      have presented := State.head?_of_event event nofun
      rw [State.next_of_cmd event, Engine.afterCommand_of_not_idle notIdle (clrLost w presented)]
      exact ⟨rfl, rfl, notIdle⟩
    | turn =>
      rw [State.next_of_turn event]
      exact ⟨s.engine.advance_input.1, s.engine.advance_input.2, Engine.advance_ph_ne_idle notIdle⟩
    | rst => exact absurd (State.head?_of_event event nofun) notRst
    | power => exact absurd (State.head?_of_event event nofun) notPower

/-! ### Who writes what -/

/-- Settles O40. Each operation in turn: what its law does not write is as before. -/
theorem whoWritesEachItem : Obligations.WhoWritesEachItem := by
  intro i s t done
  cases i with
  | nop | rds | rdd => cases done; simp
  | push b =>
    cases (exec_of_space_cmd rfl s).symm.trans done
    by_cases idle : s.engine.ph = .idle <;> simp [Engine.afterCommand, idle]
  | start =>
    cases (exec_of_space_cmd rfl s).symm.trans done
    by_cases idle : s.engine.ph = .idle <;> simp [Engine.afterCommand, idle]
  | clr => simp
  | chk => cases (exec_chk s).symm.trans done; simp
  | ldw u => cases (exec_ldw u s).symm.trans done; simp
  | exw u =>
    by_cases lo : 16 ≤ u.toNat
    · cases (exec_exw_of_ge lo s).symm.trans done; simp
    · cases (exwBelowSixteenIsRefused s u (Nat.lt_of_not_le lo)).1.symm.trans done
  | init => cases (exec_init s).symm.trans done; simp
  | rnd u => cases (exec_rnd u s).symm.trans done; simp
  | fin => cases (exec_fin s).symm.trans done; simp

/-! ### How phases are entered and left -/

/-- R145: only the turn of `CHECK` with a length other than 64 leads to `ERROR`. -/
theorem Engine.check_of_advance_error {e : Engine} (notError : e.ph ≠ .error) (error : e.advance.ph = .error) :
    e.ph = .check ∧ e.len ≠ 64#7 := by
  cases phase : e.ph with
  | check =>
    rw [Engine.advance_of_check phase] at error
    refine ⟨rfl, fun valid => ?_⟩
    rw [if_pos valid] at error
    cases error
  | sched =>
    rw [Engine.advance_of_sched phase] at error
    split at error <;> cases error
  | init => rw [Engine.advance_of_init phase] at error; cases error
  | round =>
    rw [Engine.advance_of_round phase, Engine.round_ph, phase] at error
    split at error <;> cases error
  | final => rw [Engine.advance_of_final phase] at error; cases error
  | idle => rw [Engine.advance_of_waiting (.inl phase), phase] at error; cases error
  | done => rw [Engine.advance_of_waiting (.inr (.inl phase)), phase] at error; cases error
  | error => exact absurd phase notError

/-- R116 to R122: a command leaves the phase as it is, or it is an accepted `START` or an accepted `CLR`. -/
theorem Engine.afterCommand_ph_cases (e : Engine) (i : Instr) :
    (e.afterCommand i).ph = e.ph ∨ (i = .start ∧ e.ph = .idle ∧ (e.afterCommand i).ph = .check) ∨
      (i = .clr ∧ (e.afterCommand i).ph = .idle) := by
  by_cases idle : e.ph = .idle
  · cases i with
    | push b =>
      rw [Engine.afterCommand, if_pos idle]
      exact .inl (e.pushByte_ph b)
    | start =>
      rw [Engine.afterCommand, if_pos idle]
      exact .inr (.inl ⟨rfl, idle, rfl⟩)
    | clr =>
      rw [Engine.afterCommand_clr_of_waiting (.inl idle)]
      exact .inl idle.symm
    | _ => exact .inl rfl
  · rcases Engine.afterCommand_cases_of_not_idle idle i with ⟨clr, -, cleared⟩ | ⟨-, kept⟩
    · exact .inr (.inr ⟨clr, congrArg Engine.ph cleared⟩)
    · exact .inl (congrArg Engine.ph kept)

/-- Settles O41. -/
theorem onlyChkRaises : Obligations.OnlyChkRaises := by
  intro s t stepped notPower notError error
  rw [eq_next_of_step stepped] at error ⊢
  cases event : s.event with
  | cmd w =>
    rw [State.next_of_cmd event] at error
    rcases s.engine.afterCommand_ph_cases (decodeCommand w) with same | ⟨-, -, check⟩ | ⟨-, idle⟩
    · exact absurd (same.symm.trans error) notError
    · cases check.symm.trans error
    · cases idle.symm.trans error
  | turn =>
    rw [State.next_of_turn event] at error ⊢
    obtain ⟨check, invalid⟩ := Engine.check_of_advance_error notError error
    refine ⟨check, invalid, ?_, rfl⟩
    rw [Engine.advance_of_check check, if_neg invalid]
    rfl
  | rst => rw [State.next_of_rst event] at error; cases error
  | power => exact absurd (State.head?_of_event event nofun) notPower

/-- Settles O42. -/
theorem onlyHostLeavesAWaitingPhase : Obligations.OnlyHostLeavesAWaitingPhase := by
  intro s t stepped notPower left
  rw [eq_next_of_step stepped] at left
  cases event : s.event with
  | cmd w =>
    rw [State.next_of_cmd event] at left
    have presented := State.head?_of_event event nofun
    rcases s.engine.afterCommand_ph_cases (decodeCommand w) with same | ⟨start, idle, -⟩ | ⟨clr, idle⟩
    · exact absurd same left
    · exact ⟨fun _ => ⟨w, presented, start⟩, fun stopped => by rcases stopped with h | h <;> cases idle.symm.trans h⟩
    · exact ⟨fun wasIdle => absurd (idle.trans wasIdle.symm) left, fun _ => .inr ⟨w, presented, clr⟩⟩
  | turn =>
    rw [State.next_of_turn event] at left
    have stays (waiting : s.engine.ph = .idle ∨ s.engine.ph = .done ∨ s.engine.ph = .error) : False :=
      left (congrArg Engine.ph (Engine.advance_of_waiting waiting))
    exact ⟨fun idle => (stays (.inl idle)).elim, fun stopped => (stays (.inr stopped)).elim⟩
  | rst =>
    rw [State.next_of_rst event] at left
    exact ⟨fun idle => absurd idle.symm left, fun _ => .inl (State.head?_of_event event nofun)⟩
  | power => exact absurd (State.head?_of_event event nofun) notPower

/-! ### What the path depends on -/

/-- What decides how an engine goes on: its sequencer register and its length (R33). -/
def Engine.SameControl (e e' : Engine) : Prop := e.ph = e'.ph ∧ e.t = e'.t ∧ e.len = e'.len

/-- R118: how far a `PUSH` counts depends on the length alone. -/
theorem Engine.pushByte_len_congr {e e' : Engine} (len : e.len = e'.len) (b : Byte) : (e.pushByte b).len = (e'.pushByte b).len := by
  rcases Nat.lt_trichotomy e.len.toNat 64 with room | full | beyond
  · rw [Engine.pushByte_of_lt room, Engine.pushByte_of_lt (len ▸ room)]
    exact congrArg (· + 1#7) len
  · rw [Engine.pushByte_of_full full, Engine.pushByte_of_full (len ▸ full)]
  · rw [Engine.pushByte_of_gt beyond, Engine.pushByte_of_gt (len ▸ beyond), len]

theorem Engine.SameControl.afterCommand {e e' : Engine} (same : e.SameControl e') (i : Instr) :
    (e.afterCommand i).SameControl (e'.afterCommand i) := by
  obtain ⟨ph, t, len⟩ := same
  cases i with
  | push b =>
    simp only [Engine.afterCommand, ← ph]
    split
    · exact ⟨by simpa using ph, by simpa using t, Engine.pushByte_len_congr len b⟩
    · exact ⟨ph, t, len⟩
  | start =>
    simp only [Engine.afterCommand, ← ph]
    split
    · exact ⟨rfl, rfl, len⟩
    · exact ⟨ph, t, len⟩
  | clr =>
    simp only [Engine.afterCommand, ← ph]
    split
    · exact ⟨ph, t, len⟩
    · exact ⟨rfl, rfl, rfl⟩
  | _ => exact ⟨ph, t, len⟩

/-- R124: the successor of a turn depends on the sequencer register, and at `CHK` on whether the length is 64. -/
theorem Engine.advance_seq_congr {e e' : Engine} (ph : e.ph = e'.ph) (t : e.t = e'.t) (valid : e.len = 64#7 ↔ e'.len = 64#7) :
    e.advance.ph = e'.advance.ph ∧ e.advance.t = e'.advance.t := by
  cases phase : e.ph with
  | check => rw [Engine.advance_of_check phase, Engine.advance_of_check (ph ▸ phase)]; simp [valid]
  | sched => rw [Engine.advance_of_sched phase, Engine.advance_of_sched (ph ▸ phase)]; simp [t]
  | init => rw [Engine.advance_of_init phase, Engine.advance_of_init (ph ▸ phase)]; exact ⟨rfl, rfl⟩
  | round => rw [Engine.advance_of_round phase, Engine.advance_of_round (ph ▸ phase)]; simp [ph, t]
  | final => rw [Engine.advance_of_final phase, Engine.advance_of_final (ph ▸ phase)]; exact ⟨rfl, rfl⟩
  | idle | done | error =>
    have waiting : e.ph = .idle ∨ e.ph = .done ∨ e.ph = .error := by rw [phase]; decide
    rw [Engine.advance_of_waiting waiting, Engine.advance_of_waiting (ph ▸ waiting)]
    exact ⟨ph, t⟩

theorem Engine.SameControl.advance {e e' : Engine} (same : e.SameControl e') : e.advance.SameControl e'.advance := by
  obtain ⟨ph, t, len⟩ := same
  obtain ⟨ph', t'⟩ := Engine.advance_seq_congr ph t (by rw [len])
  exact ⟨ph', t', by rw [e.advance_input.2, e'.advance_input.2, len]⟩

theorem Engine.SameControl.regular_iff {e e' : Engine} (same : e.SameControl e') : e.Regular ↔ e'.Regular := by
  obtain ⟨ph, t, -⟩ := same
  rw [Engine.Regular, Engine.Regular, ph, t]

/-- Settles O45. -/
theorem controlDependsOnLengthAlone : Obligations.ControlDependsOnLengthAlone := by
  intro s1 s2 inputs notPower ph t len
  have same : s1.engine.SameControl s2.engine := ⟨ph, t, len⟩
  have event : s1.event = s2.event := by rw [State.event, State.event, inputs]
  by_cases regular : s1.event = .turn → s1.engine.Regular
  · have step1 := step_eq_next regular
    have step2 : step s2 = .next s2.next := step_eq_next fun turn => same.regular_iff.mp (regular (event.trans turn))
    refine ⟨fun t1 stepped => ?_, fun r fault => by cases step1.symm.trans fault⟩
    have control : s1.next.engine.SameControl s2.next.engine := by
      cases event1 : s1.event with
      | cmd w => rw [State.next_of_cmd event1, State.next_of_cmd (event ▸ event1)]; exact same.afterCommand _
      | turn => rw [State.next_of_turn event1, State.next_of_turn (event ▸ event1)]; exact same.advance
      | rst => rw [State.next_of_rst event1, State.next_of_rst (event ▸ event1)]; exact ⟨rfl, rfl, rfl⟩
      | power => exact absurd (State.head?_of_event event1 nofun) notPower
    rw [eq_next_of_step stepped]
    exact ⟨s2.next, step2, by rw [State.next_inputs, State.next_inputs, inputs], control⟩
  · obtain ⟨turn, stuck⟩ := Classical.not_imp.mp regular
    have step1 := step_eq_fault turn stuck
    have step2 := step_eq_fault (event ▸ turn) (mt same.regular_iff.mpr stuck)
    exact ⟨fun t1 stepped => by (cases step1.symm.trans stepped), fun r fault => by rw [step2, ← step1, fault]⟩

/-! ### The unreachable words -/

/-- Settles O17. -/
theorem unreachableSequencerWordsAreStuck : Obligations.UnreachableSequencerWordsAreStuck := by
  refine ⟨fun w => selectMicroOp_unreachable_iff _ _, ?count, fun s unreachable => ?_⟩
  case count => decide +kernel
  have stuck : ¬ s.engine.Regular := by
    rw [Engine.not_regular_iff, ← decodeSequencer_sequencerWord]
    exact unreachable
  have ofRst {rest : List Input} (event : s.inputs = .rst :: rest) : ∃ t, step s = .next t ∧ t.engine = State.reset.engine :=
    ⟨_, step_of_rst event, rfl⟩
  have ofCmd {w : BitVec 11} {rest : List Input} (event : s.inputs = .cmd w :: rest) :
      step s = .next s.next ∧ s.next.engine = s.engine.afterCommand (decodeCommand w) := by
    have event := State.event_cons event
    exact ⟨step_eq_next fun turn => (nomatch event.symm.trans turn), by rw [State.next_of_cmd event]⟩
  refine ⟨fun noEvent => step_eq_fault (State.event_nil noEvent) stuck, fun rest event => step_eq_fault (State.event_cons event) stuck,
    fun rest event => ofRst event, fun w rest event clr waiting => ?cleared, fun w rest event working => ?lost⟩
  case cleared =>
    obtain ⟨stepped, engine⟩ := ofCmd event
    exact ⟨_, stepped, by rw [engine, clr, Engine.afterCommand_clr_of_waiting waiting]; rfl⟩
  case lost =>
    obtain ⟨stepped, engine⟩ := ofCmd event
    have working : busy s.engine.ph = true := by rcases working with h | h | h <;> rw [h] <;> rfl
    exact ⟨_, stepped, by rw [engine, Engine.afterCommand_of_busy working]⟩

end Sys2Proof.Machine
end

section
/-! Laws of runs: the engine's turns one after another (44_transform.md R126), runs over a list of events (20_memory.md R47), and
what a run leaves of a stopped and of a busy engine; and the statements about them. -/

namespace Sys2Proof.Machine

/-! ### The engine's turns, one after another -/

/-- `n` turns lead from one engine to another, each taken in a busy phase at a word that is reachable. -/
inductive Engine.Works : Nat → Engine → Engine → Prop where
  | rest (e : Engine) : Works 0 e e
  | turn {n : Nat} {e f : Engine} (working : busy e.ph = true) (regular : e.Regular) (more : Works n e.advance f) : Works (n + 1) e f

theorem Engine.Works.trans {m n : Nat} {e f g : Engine} (first : Engine.Works m e f) (second : Engine.Works n f g) :
    Engine.Works (m + n) e g := by
  induction first with
  | rest e => rwa [Nat.zero_add]
  | turn working regular _ ih => rw [Nat.add_right_comm]; exact .turn working regular (ih second)

/-- Before each of its turns a working engine has come some way and is still busy. -/
theorem Engine.Works.before {n k : Nat} {e f : Engine} (works : Engine.Works n e f) (below : k < n) :
    ∃ u, Engine.Works k e u ∧ busy u.ph = true ∧ u.Regular := by
  induction works generalizing k with
  | rest e => cases below
  | turn working regular more ih =>
    cases k with
    | zero => exact ⟨_, .rest _, working, regular⟩
    | succ k =>
      obtain ⟨u, works, busyThere⟩ := ih (Nat.lt_of_succ_lt_succ below)
      exact ⟨u, .turn working regular works, busyThere⟩

theorem State.next_of_nil {s : State} (noEvent : s.inputs = []) : s.next = { s with engine := s.engine.advance } := by
  rw [State.next_of_turn (State.event_nil noEvent), noEvent, List.tail_nil, ← noEvent]

/-- With no event left the machine takes the engine's turns. -/
theorem Engine.Works.runSteps {n : Nat} {e f : Engine} (works : Engine.Works n e f) {s : State} (engine : s.engine = e)
    (noEvent : s.inputs = []) : runSteps n s = .next { s with engine := f } := by
  induction works generalizing s with
  | rest e => rw [← engine]; rfl
  | turn working regular more ih =>
    subst engine
    rw [runSteps_succ_of_step (step_eq_next fun _ => regular), State.next_of_nil noEvent]
    exact ih rfl noEvent

/-- R124: a turn of a busy engine always moves the sequencer register. -/
theorem Engine.advance_ne_of_busy {e : Engine} (working : busy e.ph = true) : e.advance ≠ e := by
  intro same
  have phase_kept := congrArg Engine.ph same
  have index_kept := congrArg Engine.t same
  have index_moves : e.t + 1#6 ≠ e.t := by simp
  rcases (busy_iff e.ph).mp working with phase | phase | phase | phase | phase
  · rw [Engine.advance_of_check phase, phase] at phase_kept
    split at phase_kept <;> cases phase_kept
  · rw [Engine.advance_of_sched phase] at index_kept
    exact index_moves index_kept
  · rw [Engine.advance_of_init phase, phase] at phase_kept
    cases phase_kept
  · rw [Engine.advance_of_round phase, Engine.round_t] at index_kept
    split at index_kept
    · exact index_moves index_kept
    · next last => exact index_moves ((index_succ_of_last last).trans index_kept)
  · rw [Engine.advance_of_final phase, phase] at phase_kept
    cases phase_kept

/-! ### The phases of a transform -/

/-- R90: the schedule words below `t` are in `W`. -/
def Engine.FilledBelow (e : Engine) : Prop := ∀ i, (h : i < 64) → i < e.t.toNat → e.w[i] = (schedule e.ib)[i]

/-- A turn of `SCHED` adds the word of its index. -/
theorem scheduleExtend_getElem {e : Engine} (filled : e.FilledBelow) {i : Nat} (h : i < 64) (upTo : i ≤ e.t.toNat) :
    (scheduleExtend e.ib e.t.toNat e.w)[i] = (schedule e.ib)[i] := by
  rw [scheduleExtend, dif_pos e.t.isLt]
  by_cases last : e.t.toNat = i
  · subst last
    rw [Vector.getElem_set_self, schedule_getElem _ h]
    exact scheduleNext_congr h filled
  · rw [Vector.getElem_set_ne _ _ last, filled i h (by omega)]

/-- In `SCHED` a turn is always taken, whatever the index. -/
theorem Engine.works_succ_of_sched {n : Nat} {e f : Engine} (sched : e.ph = .sched) (more : Engine.Works n e.advance f) :
    Engine.Works (n + 1) e f :=
  .turn (by rw [sched]; rfl) (fun notSched => absurd sched notSched) more

/-- R90: from any index of `SCHED` the turns that are left fill `W`, if the words below the index are there. -/
theorem Engine.works_of_sched (k : Nat) {e : Engine} (sched : e.ph = .sched) (left : e.t.toNat + k = 63)
    (filled : e.FilledBelow) : Engine.Works (k + 1) e { e with w := schedule e.ib, ph := .init, t := 0#6 } := by
  induction k generalizing e with
  | zero =>
    have last : ¬ e.t.toNat < 63 := by omega
    have full : scheduleExtend e.ib e.t.toNat e.w = schedule e.ib :=
      Vector.ext fun i h => scheduleExtend_getElem filled h (by omega)
    refine Engine.works_succ_of_sched sched ?_
    rw [Engine.advance_of_sched sched, if_neg last, index_succ_of_last last, full]
    exact .rest _
  | succ k ih =>
    have below : e.t.toNat < 63 := by omega
    have index : (e.t + 1#6).toNat = e.t.toNat + 1 := index_succ_toNat below
    refine Engine.works_succ_of_sched sched ?_
    rw [Engine.advance_of_sched sched, if_pos below]
    exact ih (e := { e with w := scheduleExtend e.ib e.t.toNat e.w, ph := .sched, t := e.t + 1#6 }) rfl (by simp only; omega)
      fun i h upTo => scheduleExtend_getElem filled h (by simp only [index] at upTo; omega)

/-- In `ROUND` a turn is always taken, whatever the index. -/
theorem Engine.works_succ_of_round {n : Nat} {e f : Engine} (round : e.ph = .round) (more : Engine.Works n e.advance f) :
    Engine.Works (n + 1) e f :=
  .turn (by rw [round]; rfl) (fun _ notRound => absurd round notRound) more

/-- R105: from any index of `ROUND` the turns that are left mix `R`, if it holds the registers of the rounds below the index. -/
theorem Engine.works_of_round (k : Nat) {e : Engine} (round : e.ph = .round) (left : e.t.toNat + k = 63)
    (mixed : e.r = roundsUpTo e.w e.t.toNat) : Engine.Works (k + 1) e { e with r := rounds e.w, ph := .final, t := 0#6 } := by
  induction k generalizing e with
  | zero =>
    have last : e.t.toNat = 63 := by omega
    have notBelow : ¬ e.t.toNat < 63 := by omega
    refine Engine.works_succ_of_round round ?_
    rw [Engine.advance_of_round_eq round, mixed, roundStep_roundsUpTo, if_neg notBelow, index_succ_of_last notBelow, last]
    exact .rest _
  | succ k ih =>
    have below : e.t.toNat < 63 := by omega
    have index : (e.t + 1#6).toNat = e.t.toNat + 1 := index_succ_toNat below
    refine Engine.works_succ_of_round round ?_
    rw [Engine.advance_of_round_eq round, mixed, roundStep_roundsUpTo, if_pos below]
    exact ih (e := { e with r := roundsUpTo e.w (e.t.toNat + 1), ph := .round, t := e.t + 1#6 }) rfl (by simp only; omega)
      (by simp only [index])

/-- R90: the whole of `SCHED`. -/
theorem Engine.works_of_sched_start {e : Engine} (sched : e.ph = .sched) (index : e.t = 0#6) :
    Engine.Works 64 e { e with w := schedule e.ib, ph := .init, t := 0#6 } :=
  Engine.works_of_sched 63 sched (by rw [index]; rfl) fun i _ below => absurd below (by rw [index]; exact Nat.not_lt_zero i)

/-- R96, R105: `INIT` and the whole of `ROUND`. -/
theorem Engine.works_of_init {e : Engine} (init : e.ph = .init) (index : e.t = 0#6) :
    Engine.Works 65 e { e with r := rounds e.w, ph := .final, t := 0#6 } := by
  refine .turn (by rw [init]; rfl) (fun _ _ => index) ?_
  rw [Engine.advance_of_init init]
  exact Engine.works_of_round 63 (e := { e with r := romH, ph := .round, t := 0#6 }) rfl rfl rfl

/-- R112, R113: `FINAL`. -/
theorem Engine.works_of_final {e : Engine} (final : e.ph = .final) (index : e.t = 0#6) :
    Engine.Works 1 e { e with dg := digest e.r, ph := .done, t := 0#6 } := by
  refine .turn (by rw [final]; rfl) (fun _ _ => index) ?_
  rw [Engine.advance_of_final final, Engine.finalize, writeDigest_eq_digest]
  exact .rest _

/-- R126, R130: the transform of an accepted block of 64 bytes. -/
theorem Engine.works_of_check_valid {e : Engine} (check : e.ph = .check) (index : e.t = 0#6) (valid : e.len = 64#7) :
    Engine.Works 131 e { e with
      w := schedule e.ib, r := rounds (schedule e.ib), dg := compress e.ib, ph := .done, t := 0#6 } := by
  refine .turn (n := 64 + (65 + 1)) (by rw [check]; rfl) (fun _ _ => index) ?_
  rw [Engine.advance_of_check check, if_pos valid]
  exact (Engine.works_of_sched_start rfl rfl).trans ((Engine.works_of_init rfl rfl).trans (Engine.works_of_final rfl rfl))

/-- R123, R145: the failure of any other length. -/
theorem Engine.works_of_check_invalid {e : Engine} (check : e.ph = .check) (index : e.t = 0#6) (invalid : e.len ≠ 64#7) :
    Engine.Works 1 e (e.goto .error 0#6) := by
  refine .turn (by rw [check]; rfl) (fun _ _ => index) ?_
  rw [Engine.advance_of_check check, if_neg invalid]
  exact .rest _

/-- Settles O53. -/
theorem schedulePhaseFillsW : Obligations.SchedulePhaseFillsW :=
  fun _ noEvent sched index => (Engine.works_of_sched_start sched index).runSteps rfl noEvent

/-- Settles O54. -/
theorem roundPhasesMixR : Obligations.RoundPhasesMixR :=
  fun _ noEvent init index => (Engine.works_of_init init index).runSteps rfl noEvent

/-- Settles O55. -/
theorem finalStepWritesAOneToOneDigest : Obligations.FinalStepWritesAOneToOneDigest := by
  refine ⟨fun s noEvent final index => ?_, fun r r' same => digest_injective same⟩
  rw [step_nil noEvent, engineTurn_final final index, execFin, Engine.finalize, writeDigest_eq_digest]
  rfl

/-- R125: with no event left, the machine does not move a stopped engine. -/
theorem step_of_stopped {s : State} (noEvent : s.inputs = []) (stopped : s.engine.Over) (index : s.engine.t = 0#6) :
    step s = .next s :=
  (step_nil noEvent).trans (engineTurn_waiting (.inr stopped) index)

/-- A machine that works on is busy and moves before each of its steps. -/
theorem Engine.Works.runSteps_before {n k : Nat} {e f : Engine} (works : Engine.Works n e f) {s : State} (engine : s.engine = e)
    (noEvent : s.inputs = []) (below : k < n) :
    ∃ t, Machine.runSteps k s = .next t ∧ busy t.engine.ph = true ∧ step t ≠ .next t := by
  obtain ⟨u, sofar, working, regular⟩ := works.before below
  refine ⟨_, sofar.runSteps engine noEvent, working, fun still => ?_⟩
  have moved := congrArg State.engine (eq_next_of_step still)
  rw [State.next_of_nil (s := { s with engine := u }) noEvent] at moved
  exact Engine.advance_ne_of_busy working moved.symm

/-- Settles O56. -/
theorem engineStepCounts : Obligations.EngineStepCounts := by
  intro s noEvent check index
  refine ⟨fun valid => ?valid, fun invalid => ?invalid⟩
  case valid =>
    have works := Engine.works_of_check_valid check index valid
    exact ⟨fun n below => works.runSteps_before rfl noEvent below, _, works.runSteps rfl noEvent, rfl,
      step_of_stopped noEvent (.inl rfl) rfl⟩
  case invalid =>
    have works := Engine.works_of_check_invalid check index invalid
    exact ⟨_, works.runSteps rfl noEvent, rfl, step_of_stopped noEvent (.inr rfl) rfl⟩

/-! ### Runs over a list of events -/

/-- The induction over the events of a run. `P xs s` is what holds of the state while `xs` is still to come: if the step of the
first event gives what holds of the rest, the run gives what holds at the end. -/
theorem runSteps_of_events {P : List Input → State → Prop} {rest : List Input}
    (steps : ∀ {x xs s}, s.event = x → P (x :: xs) s → (x = .turn → s.engine.Regular) ∧ P xs s.next) (xs : List Input) {s : State}
    (events : s.inputs = xs ++ rest) (holds : P xs s) :
    ∃ t, runSteps xs.length s = .next t ∧ t.inputs = rest ∧ P [] t := by
  induction xs generalizing s with
  | nil => exact ⟨s, rfl, events, holds⟩
  | cons x xs ih =>
    have event := State.event_cons events
    obtain ⟨regular, after⟩ := steps event holds
    rw [List.length_cons, runSteps_succ_of_step (step_eq_next fun turn => regular (event.symm.trans turn))]
    exact ih (by rw [State.next_inputs, events]; rfl) after

/-- An event that cannot move a stopped engine: no pulse, no loss of power, no `CLR` (R47, R133). -/
def Input.Harmless (x : Input) : Prop := x ≠ .rst ∧ x ≠ .power ∧ ∀ w, x = .cmd w → decodeCommand w ≠ .clr

/-- R121, R125: such an event leaves a stopped engine as it is. -/
theorem State.next_of_over {s : State} (stopped : s.engine.Over) (harmless : s.event.Harmless) :
    s.next.engine = s.engine ∧ s.next.powerUps = s.powerUps := by
  obtain ⟨notRst, notPower, notClr⟩ := harmless
  cases event : s.event with
  | cmd w =>
    have notIdle : s.engine.ph ≠ .idle := by rcases stopped with h | h <;> rw [h] <;> decide
    rw [State.next_of_cmd event, Engine.afterCommand_of_not_idle notIdle fun clr => absurd clr (notClr w event)]
    exact ⟨rfl, rfl⟩
  | turn =>
    rw [State.next_of_turn event, Engine.advance_of_waiting (.inr stopped)]
    exact ⟨rfl, rfl⟩
  | rst => exact absurd event notRst
  | power => exact absurd event notPower

/-- The engine `e` has stopped, and nothing that can move it is to come. -/
structure StaysStopped (e : Engine) (powerUps : Nat) (xs : List Input) (s : State) : Prop where
  engine : s.engine = e
  powerUps : s.powerUps = powerUps
  harmless : ∀ x ∈ xs, x.Harmless

theorem StaysStopped.next {e : Engine} {p : Nat} {x : Input} {xs : List Input} {s : State} (stopped : e.Over) (event : s.event = x)
    (stays : StaysStopped e p (x :: xs) s) : StaysStopped e p xs s.next := by
  obtain ⟨rfl, rfl, harmless⟩ := stays
  obtain ⟨first, others⟩ := List.forall_mem_cons.mp harmless
  obtain ⟨engine, powerUps⟩ := State.next_of_over stopped (event ▸ first)
  exact ⟨engine, powerUps, others⟩

/-- Settles O43. -/
theorem stoppedEngineStays : Obligations.StoppedEngineStays := by
  intro xs rest s stopped index events noRst noPower noClr
  have harmless : ∀ x ∈ xs, x.Harmless := fun x mem =>
    ⟨fun h => noRst (h ▸ mem), fun h => noPower (h ▸ mem), fun w h => noClr w (h ▸ mem)⟩
  obtain ⟨t, run, inputs, stays⟩ := runSteps_of_events (P := StaysStopped s.engine s.powerUps)
    (fun event stays => ⟨fun _ _ _ => stays.engine ▸ index, stays.next stopped event⟩) xs events ⟨rfl, rfl, harmless⟩
  exact ⟨t, run, stays.engine, inputs, stays.powerUps⟩

/-- The engine `e` is busy and only commands are to come; `n` responses will have been given when they are over. -/
structure LosesCommands (e : Engine) (n : Nat) (xs : List Input) (s : State) : Prop where
  engine : s.engine = e
  responses : s.resps.length + xs.length = n
  commands : ∀ x ∈ xs, ∃ w, x = .cmd w

theorem LosesCommands.next {e : Engine} {n : Nat} {x : Input} {xs : List Input} {s : State} (working : busy e.ph = true)
    (event : s.event = x) (loses : LosesCommands e n (x :: xs) s) : (x = .turn → s.engine.Regular) ∧ LosesCommands e n xs s.next := by
  obtain ⟨rfl, rfl, commands⟩ := loses
  obtain ⟨⟨w, rfl⟩, others⟩ := List.forall_mem_cons.mp commands
  rw [State.next_of_cmd event, Engine.afterCommand_of_busy working]
  exact ⟨nofun, rfl, by simp only [List.length_cons]; omega, others⟩

/-- Settles O44. -/
theorem commandsWhileBusyAreLost : Obligations.CommandsWhileBusyAreLost := by
  intro ws rest s working events
  have commands : ∀ x ∈ ws.map Input.cmd, ∃ w, x = .cmd w := by simp
  obtain ⟨t, run, inputs, loses⟩ := runSteps_of_events (P := LosesCommands s.engine (s.resps.length + ws.length))
    (fun event loses => loses.next working event) (ws.map .cmd) events ⟨rfl, by rw [List.length_map], commands⟩
  exact ⟨t, by rwa [List.length_map] at run, loses.engine, inputs, loses.responses⟩

/-! ### What responses reveal -/

/-- Two engines past `IDLE` that the host cannot tell apart: they are in the same place, and both hold a block of 64 bytes with
the same digest, or neither holds one (R33). -/
structure Engine.Indistinct (e e' : Engine) : Prop where
  notIdle : e.ph ≠ .idle
  ph : e.ph = e'.ph
  t : e.t = e'.t
  valid : e.len = 64#7 ↔ e'.len = 64#7
  digest : e.len = 64#7 → compress e.ib = compress e'.ib

/-- I4, I9: the digest register is zero, or the digest of the block. -/
theorem Engine.Sound.dg_eq {e : Engine} (sound : e.Sound) :
    e.dg = if e.ph = .done then compress e.ib else Engine.reset.dg := by
  split
  · next done => exact sound.i9 done
  · next notDone => exact sound.toReachableShape.dg_zero notDone

theorem Engine.Indistinct.dg_eq {e e' : Engine} (same : e.Indistinct e') (sound : e.Sound) (sound' : e'.Sound) : e.dg = e'.dg := by
  rw [sound.dg_eq, sound'.dg_eq, ← same.ph]
  split
  · next done => exact same.digest (sound.i3 (.inr (.inr (.inr (.inr done)))))
  · rfl

/-- R121, R122: what a read answers is the phase's status or a byte of the digest register. -/
theorem Engine.answer_congr {e e' : Engine} (ph : e.ph = e'.ph) (dg : e.dg = e'.dg) (i : Instr) : e.answer i = e'.answer i := by
  cases i with
  | rds => exact congrArg statusOf ph
  | rdd k => simp only [Engine.answer, dg]
  | _ => rfl

theorem Engine.Indistinct.afterCommand {e e' : Engine} (same : e.Indistinct e') (i : Instr) :
    e.afterCommand i = e'.afterCommand i ∨ (e.afterCommand i).Indistinct (e'.afterCommand i) := by
  have notIdle' : e'.ph ≠ .idle := same.ph ▸ same.notIdle
  rcases Engine.afterCommand_cases_of_not_idle same.notIdle i with ⟨rfl, notBusy, cleared⟩ | ⟨clrLost, kept⟩
  · exact .inl (cleared.trans (if_neg (same.ph ▸ notBusy)).symm)
  · rw [kept, Engine.afterCommand_of_not_idle notIdle' (same.ph ▸ clrLost)]
    exact .inr same

theorem Engine.Indistinct.advance {e e' : Engine} (same : e.Indistinct e') : e.advance.Indistinct e'.advance := by
  obtain ⟨ph, t⟩ := Engine.advance_seq_congr same.ph same.t same.valid
  obtain ⟨ib, len⟩ := e.advance_input
  obtain ⟨ib', len'⟩ := e'.advance_input
  exact ⟨Engine.advance_ph_ne_idle same.notIdle, ph, t, by rw [len, len', same.valid], by rw [ib, ib', len]; exact same.digest⟩

/-- Two machines that answer alike: the host has seen the same, the same is to come, and the engines are the same or cannot be
told apart. -/
structure State.Alike (s1 s2 : State) : Prop where
  sound1 : s1.engine.Sound
  sound2 : s2.engine.Sound
  inputs : s1.inputs = s2.inputs
  resps : s1.resps = s2.resps
  engines : s1.engine = s2.engine ∨ s1.engine.Indistinct s2.engine

theorem State.Alike.answer_eq {s1 s2 : State} (alike : s1.Alike s2) (i : Instr) : s1.engine.answer i = s2.engine.answer i := by
  rcases alike.engines with engine | same
  · rw [engine]
  · exact Engine.answer_congr same.ph (same.dg_eq alike.sound1 alike.sound2) i

/-- R33 for one step. An accepted `CLR` and a pulse make two engines that cannot be told apart the same one. -/
theorem State.Alike.next {s1 s2 : State} (alike : s1.Alike s2) (notPower : s1.event ≠ .power) : s1.next.Alike s2.next := by
  have answer := alike.answer_eq
  obtain ⟨sound1, sound2, inputs, resps, engines⟩ := alike
  have event : s1.event = s2.event := by rw [State.event, State.event, inputs]
  have after : s1.next.resps = s2.next.resps ∧
      (s1.next.engine = s2.next.engine ∨ s1.next.engine.Indistinct s2.next.engine) := by
    cases event1 : s1.event with
    | cmd w =>
      rw [State.next_of_cmd event1, State.next_of_cmd (event ▸ event1)]
      refine ⟨congrArg₂ List.cons (answer _) resps, ?_⟩
      exact engines.elim (fun engine => .inl (congrArg (Engine.afterCommand · _) engine)) fun same => same.afterCommand _
    | turn =>
      rw [State.next_of_turn event1, State.next_of_turn (event ▸ event1)]
      exact ⟨resps, engines.imp (congrArg Engine.advance) Engine.Indistinct.advance⟩
    | rst =>
      rw [State.next_of_rst event1, State.next_of_rst (event ▸ event1)]
      exact ⟨resps, .inl rfl⟩
    | power => exact absurd event1 notPower
  exact ⟨State.next_sound sound1 notPower, State.next_sound sound2 (event ▸ notPower),
    by rw [State.next_inputs, State.next_inputs, inputs], after.1, after.2⟩

/-- R33 for a run. -/
theorem State.Alike.resps_of_runSteps (n : Nat) {s1 s2 t1 t2 : State} (alike : s1.Alike s2) (noPower : .power ∉ s1.inputs)
    (run1 : runSteps n s1 = .next t1) (run2 : runSteps n s2 = .next t2) : t1.resps = t2.resps := by
  induction n generalizing s1 s2 with
  | zero =>
    cases run1
    cases run2
    exact alike.resps
  | succ n ih =>
    obtain ⟨notPower, noPower'⟩ := State.noPower_next noPower
    rw [runSteps_succ_of_step (step_eq_next fun _ => alike.sound1.i1)] at run1
    rw [runSteps_succ_of_step (step_eq_next fun _ => alike.sound2.i1)] at run2
    exact ih (alike.next notPower) noPower' run1 run2

/-- Settles O46. -/
theorem hostLearnsOnlyLengthAndDigest : Obligations.HostLearnsOnlyLengthAndDigest := by
  intro s1 s2 sound1 sound2 inputs noPower resps ph notIdle t valid digest n t1 t2 run1 run2
  have alike : s1.Alike s2 := ⟨sound1, sound2, inputs, resps, .inr ⟨notIdle, ph, t, valid, digest⟩⟩
  exact alike.resps_of_runSteps n noPower run1 run2

end Sys2Proof.Machine
end

section
/-! The transform from end to end (44_transform.md R131 to R133, 30_encoding.md R71): loading the bytes, the engine's work
undisturbed by what the host does beside it, and reading the result; and the statements about it. -/

namespace Sys2Proof.Machine

theorem runSteps_trans {m n : Nat} {s t u : State} (first : runSteps m s = .next t) (second : runSteps n t = .next u) :
    runSteps (m + n) s = .next u := (runSteps_add first).trans second

/-! ### Loading -/

/-- The engine at reset into which the bytes `B` have been pushed (R118). -/
def Engine.loaded (B : List Byte) : Engine :=
  { Engine.reset with ib := blockOf B, len := BitVec.ofNat 7 (min B.length 65) }

theorem blockOf_getElem (B : List Byte) {i : Nat} (h : i < 64) : (blockOf B)[i] = B.getD i 0#8 := Vector.getElem_ofFn h

theorem Engine.loaded_nil : Engine.loaded [] = Engine.reset := by
  refine Engine.ext_items (Vector.ext fun i h => ?_) rfl rfl rfl rfl rfl rfl
  exact (blockOf_getElem [] h).trans (Vector.getElem_replicate h).symm

theorem Engine.loaded_len_toNat (B : List Byte) : (Engine.loaded B).len.toNat = min B.length 65 :=
  Nat.mod_eq_of_lt (by omega)

/-- R118, byte after byte. -/
theorem Engine.pushByte_loaded (A : List Byte) (b : Byte) : (Engine.loaded A).pushByte b = Engine.loaded (A ++ [b]) := by
  have len := Engine.loaded_len_toNat A
  have length : (A ++ [b]).length = A.length + 1 := by simp
  have len' : (Engine.loaded (A ++ [b])).len.toNat = min (A.length + 1) 65 := by rw [Engine.loaded_len_toNat, length]
  -- behind the 64th byte the block no longer changes
  have block (beyond : 64 ≤ A.length) : blockOf A = blockOf (A ++ [b]) := by
    refine Vector.ext fun i h => ?_
    rw [blockOf_getElem A h, blockOf_getElem _ h, List.getD_append _ _ _ _ (by omega)]
  rcases Nat.lt_trichotomy A.length 64 with room | full | beyond
  · rw [Engine.pushByte_of_lt (by omega)]
    refine Engine.ext_items (Vector.ext fun i h => ?_) (BitVec.eq_of_toNat_eq ?_) rfl rfl rfl rfl rfl
    · have stored : (Engine.loaded A).len.toNat = A.length := by omega
      rw [memWrite1_getElem, stored]
      refine Eq.trans ?_ (blockOf_getElem (A ++ [b]) h).symm
      rw [List.getD_eq_getElem?_getD, List.getElem?_append]
      rcases Nat.lt_trichotomy i A.length with old | new | later
      · rw [if_neg (by omega), if_pos old, ← List.getD_eq_getElem?_getD]
        exact blockOf_getElem A h
      · subst new
        simp
      · rw [if_neg (by omega), if_neg (by omega), List.getElem?_eq_none (by simp; omega)]
        exact (blockOf_getElem A h).trans (List.getD_eq_default _ _ (by omega))
    · rw [len', BitVec.toNat_add_of_lt (show _ + 1 < 2 ^ 7 by omega), len]
      show min A.length 65 + 1 = _
      omega
  · rw [Engine.pushByte_of_full (by omega)]
    refine Engine.ext_items (block (by omega)) (BitVec.eq_of_toNat_eq ?_) rfl rfl rfl rfl rfl
    rw [len']
    show 65 = _
    omega
  · rw [Engine.pushByte_of_gt (by omega)]
    refine Engine.ext_items (block (by omega)) (BitVec.eq_of_toNat_eq ?_) rfl rfl rfl rfl rfl
    rw [len', len]
    omega

/-- On the way to the engine with `B` loaded: some bytes are in it, and the events to come push the others. -/
def Loads (B : List Byte) (xs : List Input) (s : State) : Prop :=
  ∃ A C, s.engine = Engine.loaded A ∧ pushedBytes xs = some C ∧ A ++ C = B

/-- R133, one event before the `START`: a `PUSH` loads its byte, and no other event that is allowed changes the engine. -/
theorem Loads.next {B : List Byte} {x : Input} {xs : List Input} {s : State} (event : s.event = x) (loads : Loads B (x :: xs) s) :
    (x = .turn → s.engine.Regular) ∧ Loads B xs s.next := by
  obtain ⟨A, C, engine, pushed, rfl⟩ := loads
  have idle : s.engine.ph = .idle := by rw [engine]; rfl
  have regular : s.engine.Regular := by rw [engine]; exact fun _ _ => rfl
  refine ⟨fun _ => regular, ?_⟩
  cases x with
  | rst => cases pushed
  | power => cases pushed
  | turn =>
    refine ⟨A, C, ?_, pushed, rfl⟩
    rwa [State.next_of_turn event, Engine.advance_of_waiting (.inl idle)]
  | cmd w =>
    have engine' := congrArg State.engine (State.next_of_cmd event)
    rcases decodeCommand_cases w with h | ⟨b, h⟩ | h | h | h | ⟨k, h⟩ <;> rw [h] at engine' <;> simp only [pushedBytes, h] at pushed
    · exact ⟨A, C, engine'.trans engine, pushed, rfl⟩
    · obtain ⟨C', others, rfl⟩ := Option.map_eq_some_iff.mp pushed
      refine ⟨A ++ [b], C', ?_, others, by rw [List.append_assoc]; rfl⟩
      rw [engine', Engine.afterCommand, if_pos idle, engine]
      exact Engine.pushByte_loaded A b
    · cases pushed
    · cases pushed
    · exact ⟨A, C, engine'.trans engine, pushed, rfl⟩
    · exact ⟨A, C, engine'.trans engine, pushed, rfl⟩

/-- R133: events that push `B` and disturb nothing load it into the reset engine. -/
theorem runSteps_of_pushedBytes {xs rest : List Input} {B : List Byte} {s : State} (pushed : pushedBytes xs = some B)
    (events : s.inputs = xs ++ rest) (engine : s.engine = Engine.reset) :
    ∃ t, runSteps xs.length s = .next t ∧ t.inputs = rest ∧ t.engine = Engine.loaded B := by
  obtain ⟨t, run, inputs, A, C, engine', nothing, rfl⟩ := runSteps_of_events (P := Loads B) Loads.next xs events
    ⟨[], B, engine.trans Engine.loaded_nil.symm, pushed, rfl⟩
  cases nothing
  exact ⟨t, run, inputs, by rwa [List.append_nil]⟩

/-! ### Working undisturbed -/

/-- R131: from the accepted `START` the engine takes its steps to the state in which the transform stops. -/
theorem Engine.works_of_started (B : List Byte) :
    Engine.Works (engineSteps B) ((Engine.loaded B).goto .check 0#6) (Engine.stopped B) := by
  by_cases valid : B.length = 64
  · have len : ((Engine.loaded B).goto .check 0#6).len = 64#7 :=
      (len_eq_iff_toNat _).mpr ((Engine.loaded_len_toNat B).trans (by omega))
    have works := Engine.works_of_check_valid rfl rfl len
    rw [engineSteps, if_pos valid, Engine.stopped, if_pos valid]
    rw [Engine.goto_len] at len
    rw [← len]
    exact works
  · have len : ((Engine.loaded B).goto .check 0#6).len ≠ 64#7 :=
      mt (len_eq_iff_toNat _).mp ((Engine.loaded_len_toNat B).symm ▸ by omega)
    rw [engineSteps, if_neg valid, Engine.stopped, if_neg valid]
    exact Engine.works_of_check_invalid rfl rfl len

theorem Engine.stopped_over (B : List Byte) : (Engine.stopped B).Over ∧ (Engine.stopped B).t = 0#6 := by
  by_cases valid : B.length = 64
  · rw [Engine.stopped, if_pos valid]; exact ⟨.inl rfl, rfl⟩
  · rw [Engine.stopped, if_neg valid]; exact ⟨.inr rfl, rfl⟩

/-- What the next of the turns that are left does: there is none, or the engine is busy and takes it. -/
theorem Engine.Works.cases_turn {n : Nat} {e f : Engine} (works : Engine.Works n e f) :
    (n = 0 ∧ e = f) ∨ ∃ k, n = k + 1 ∧ busy e.ph = true ∧ e.Regular ∧ Engine.Works k e.advance f := by
  cases works with
  | rest => exact .inl ⟨rfl, rfl⟩
  | turn working regular more => exact .inr ⟨_, rfl, working, regular, more⟩

/-- On the way to the engine `f`: some turns are left, at most `m` more than the events to come hold, and these events leave
the transform undisturbed. -/
def OnTheWay (f : Engine) (m : Nat) (xs : List Input) (s : State) : Prop :=
  ∃ n, Engine.Works n s.engine f ∧ undisturbed n xs = true ∧ n ≤ m + xs.count .turn

/-- R133, one event after the `START`: a turn brings a busy engine one step further, and no other event that is allowed moves it. -/
theorem OnTheWay.next {f : Engine} {m : Nat} {x : Input} {xs : List Input} {s : State} (stopped : f.Over) (index : f.t = 0#6)
    (event : s.event = x) (way : OnTheWay f m (x :: xs) s) : (x = .turn → s.engine.Regular) ∧ OnTheWay f m xs s.next := by
  obtain ⟨n, works, allowed, atMost⟩ := way
  cases x with
  | rst => cases allowed
  | power => cases allowed
  | turn =>
    rw [List.count_cons_self] at atMost
    rw [State.next_of_turn event]
    rcases works.cases_turn with ⟨rfl, rfl⟩ | ⟨k, rfl, -, regular, more⟩
    · exact ⟨fun _ _ _ => index, 0, (Engine.advance_of_waiting (.inr stopped)).symm ▸ works, allowed, Nat.zero_le _⟩
    · exact ⟨fun _ => regular, k, more, allowed, by omega⟩
  | cmd w =>
    simp only [undisturbed, Bool.and_eq_true, Bool.or_eq_true, bne_iff_ne, decide_eq_true_iff] at allowed
    obtain ⟨notClr, others⟩ := allowed
    have kept : s.engine.afterCommand (decodeCommand w) = s.engine := by
      rcases works.cases_turn with ⟨rfl, rfl⟩ | ⟨k, rfl, working, -⟩
      · have notIdle : s.engine.ph ≠ .idle := by rcases stopped with h | h <;> rw [h] <;> decide
        exact Engine.afterCommand_of_not_idle notIdle fun clr => notClr.elim (absurd clr) (absurd · (Nat.lt_irrefl 0))
      · exact Engine.afterCommand_of_busy working _
    have sameCount : (Input.cmd w :: xs).count .turn = xs.count .turn :=
      List.count_cons_of_ne (show .cmd w ≠ Input.turn from nofun)
    rw [State.next_of_cmd event, kept]
    exact ⟨nofun, n, works, others, sameCount ▸ atMost⟩

/-- R132, R133: from the reset engine over events that push `B`, a `START` and events that leave the transform undisturbed: the
engine is on its way to the one state that `B` determines, short of at most `m` turns if the events hold all the others. -/
theorem runSteps_of_transform {B : List Byte} {before after rest : List Input} {w : BitVec 11} {m : Nat} {s : State}
    (pushed : pushedBytes before = some B) (start : decodeCommand w = .start) (allowed : undisturbed (engineSteps B) after = true)
    (enough : engineSteps B ≤ m + after.count .turn) (engine : s.engine = Engine.reset)
    (events : s.inputs = before ++ .cmd w :: (after ++ rest)) :
    ∃ t n, runSteps (before.length + 1 + after.length) s = .next t ∧ t.inputs = rest ∧
      Engine.Works n t.engine (Engine.stopped B) ∧ n ≤ m := by
  obtain ⟨s1, run1, events1, engine1⟩ := runSteps_of_pushedBytes pushed events engine
  have event1 := State.event_cons events1
  have run2 : runSteps 1 s1 = .next s1.next := runSteps_succ_of_step (step_eq_next fun turn => nomatch event1.symm.trans turn) 0
  have engine2 : s1.next.engine = (Engine.loaded B).goto .check 0#6 := by
    rw [State.next_of_cmd event1, start, engine1]
    rfl
  have events2 : s1.next.inputs = after ++ rest := by rw [State.next_inputs, events1]; rfl
  obtain ⟨stopped, index⟩ := Engine.stopped_over B
  obtain ⟨t, run3, inputs, n, works, -, atMost⟩ := runSteps_of_events (P := OnTheWay (Engine.stopped B) m)
    (fun event way => way.next stopped index event) after events2
    ⟨_, engine2 ▸ Engine.works_of_started B, allowed, enough⟩
  exact ⟨t, n, runSteps_trans (runSteps_trans run1 run2) run3, inputs, works, atMost⟩

/-- A stopped machine stays as it is for any number of further steps. -/
theorem runSteps_of_stopped {s : State} (noEvent : s.inputs = []) (stopped : s.engine.Over) (index : s.engine.t = 0#6) (n : Nat) :
    runSteps n s = .next s := by
  induction n with
  | zero => rfl
  | succ n ih => rw [runSteps_succ_of_step (step_of_stopped noEvent stopped index), ih]

/-- Settles O58. -/
theorem transformIgnoresInterleaving : Obligations.TransformIgnoresInterleaving := by
  intro B before after w s pushed start allowed engine events
  obtain ⟨stopped, index⟩ := Engine.stopped_over B
  obtain ⟨t, n, run, noEvent, works, atMost⟩ := runSteps_of_transform (m := engineSteps B) (rest := []) pushed start allowed
    (Nat.le_add_right _ _) engine (by rw [events, List.append_nil])
  have finish := works.runSteps rfl noEvent
  have idle := runSteps_of_stopped (s := { t with engine := Engine.stopped B }) noEvent stopped index (engineSteps B - n)
  have rest := runSteps_trans finish idle
  rw [Nat.add_sub_cancel' atMost] at rest
  exact ⟨_, runSteps_trans run rest, noEvent, rfl, step_of_stopped noEvent stopped index⟩

/-! ### Host programs -/

/-- R71: the words of `LOAD` push the bytes, in order. -/
theorem pushedBytes_pseudoLoad (B : List Byte) : pushedBytes (pseudoLoad B) = some B ∧ (pseudoLoad B).length = B.length := by
  induction B with
  | nil => exact ⟨rfl, rfl⟩
  | cons b B ih =>
    have decoded : decodeCommand (0b001#3 ++ b : BitVec (3 + 8)) = .push b := by
      rw [decodeCommand_of_op_one (commandOp_append _ b), commandByte_append]
    have first : pseudoLoad (b :: B) = .cmd (0b001#3 ++ b : BitVec (3 + 8)) :: pseudoLoad B := rfl
    rw [first]
    exact ⟨by simp only [pushedBytes, decoded, ih.1]; rfl, by rw [List.length_cons, ih.2]; rfl⟩

/-- A list of 64 bytes is the block that it holds. -/
theorem blockOf_of_length {B : List Byte} (valid : B.length = 64) : blockOf B = ⟨B.toArray, valid⟩ :=
  Vector.ext fun _ h => (blockOf_getElem B h).trans (List.getD_eq_getElem B 0#8 (valid ▸ h))

/-- R131: where a transform of 64 bytes stops. -/
theorem Engine.stopped_of_valid {B : List Byte} (valid : B.length = 64) :
    (Engine.stopped B).ph = .done ∧ (Engine.stopped B).status = 0x04#8 ∧ (Engine.stopped B).dg = compress (blockOf B) ∧
      transform B = .ok (compress (blockOf B)) := by
  rw [Engine.stopped, if_pos valid, transform, dif_pos valid, blockOf_of_length valid]
  exact ⟨rfl, show statusOf .done = 0x04#8 by decide, rfl, rfl⟩

/-- R131: where a transform of any other length stops. -/
theorem Engine.stopped_of_invalid {B : List Byte} (invalid : B.length ≠ 64) :
    (Engine.stopped B).ph = .error ∧ (Engine.stopped B).status = 0x18#8 ∧ (Engine.stopped B).w = Engine.reset.w ∧
      (Engine.stopped B).r = Engine.reset.r ∧ (Engine.stopped B).dg = Engine.reset.dg ∧
      transform B = .err .invalidInputLength := by
  rw [Engine.stopped, if_neg invalid, transform, dif_neg invalid]
  exact ⟨rfl, show statusOf .error = 0x18#8 by decide, rfl, rfl, rfl, rfl⟩

/-- R131: the tagged result of the state in which the transform of `B` stops. -/
theorem Engine.stopped_result (B : List Byte) : (Engine.stopped B).result = some (transform B) := by
  by_cases valid : B.length = 64
  · obtain ⟨ph, -, dg, result⟩ := Engine.stopped_of_valid valid
    rw [Engine.result, ph, dg, result]
  · obtain ⟨ph, -, -, -, -, result⟩ := Engine.stopped_of_invalid valid
    rw [Engine.result, ph, result]

/-- Settles O57. `LOAD` and `START` alone, without anything beside them. -/
theorem transformEndToEnd : Obligations.TransformEndToEnd := by
  intro B s engine events
  obtain ⟨pushed, length⟩ := pushedBytes_pseudoLoad B
  obtain ⟨t, run, inputs, stopped, -⟩ := transformIgnoresInterleaving B (pseudoLoad B) [] 0x200#11 s pushed rfl rfl engine events
  rw [length] at run
  refine ⟨t, run, inputs, ?_, fun valid => ?_, fun invalid => ?_⟩ <;> rw [stopped]
  · exact Engine.stopped_result B
  · obtain ⟨ph, status, dg, result⟩ := Engine.stopped_of_valid valid
    exact ⟨ph, status, dg ▸ result⟩
  · obtain ⟨ph, status, w, r, dg, -⟩ := Engine.stopped_of_invalid invalid
    exact ⟨ph, status, w, r, dg⟩

/-! ### XFORM -/

/-- R62, R71: the step of an issued command. -/
theorem step_of_issue {i : Instr} (wellFormed : i.WellFormed) (space : i.space = .cmd) {s : State} {rest : List Input}
    (events : s.inputs = issue i ++ rest) :
    step s = .next ⟨s.engine.afterCommand i, rest, s.engine.answer i :: s.resps, s.powerUps⟩ := by
  obtain ⟨w, -, decoded, -, issued⟩ := issue_of_space_cmd wellFormed space
  have waiting : s.inputs = .cmd w :: rest := by rw [events, issued]; rfl
  have event := State.event_cons waiting
  rw [step_eq_next fun turn => (nomatch event.symm.trans turn), State.next_of_cmd event, Except.ok.inj decoded, waiting]
  rfl

/-- R121, R122: a sequence of reads is answered in order, and the engine stays as it is. -/
theorem runSteps_of_reads {reads : List Instr} {rest : List Input} {s : State}
    (isRead : ∀ i ∈ reads, i = .rds ∨ ∃ k, i = .rdd k) (events : s.inputs = reads.flatMap issue ++ rest) :
    runSteps reads.length s = .next ⟨s.engine, rest, (reads.map s.engine.answer).reverse ++ s.resps, s.powerUps⟩ := by
  induction reads generalizing s with
  | nil =>
    have nothing : rest = s.inputs := events.symm
    rw [nothing]
    rfl
  | cons i reads ih =>
    obtain ⟨first, others⟩ := List.forall_mem_cons.mp isRead
    have read : i.WellFormed ∧ i.space = .cmd ∧ s.engine.afterCommand i = s.engine := by
      rcases first with rfl | ⟨k, rfl⟩ <;> exact ⟨rfl, rfl, rfl⟩
    obtain ⟨wellFormed, space, kept⟩ := read
    have stepped := step_of_issue wellFormed space (s := s) (rest := reads.flatMap issue ++ rest)
      (by rw [events, List.flatMap_cons, List.append_assoc])
    rw [List.length_cons, runSteps_succ_of_step stepped, kept, ih others rfl]
    simp

/-- The polls of `WAIT` before the last one, with the engine's turns before each. -/
def earlierPolls : List Nat → List Input
  | [] => []
  | n :: turns => List.replicate n .turn ++ issue .rds ++ earlierPolls turns

theorem pseudoWait_eq (turns : List Nat) : pseudoWait turns = earlierPolls turns ++ issue .rds := by
  induction turns with
  | nil => rfl
  | cons n turns ih => rw [pseudoWait, earlierPolls, ih, List.append_assoc _ (earlierPolls turns)]

theorem earlierPolls_count_turn (turns : List Nat) : (earlierPolls turns).count .turn = turns.sum := by
  induction turns with
  | nil => rfl
  | cons n turns ih =>
    have poll : (issue .rds).count .turn = 0 := by decide
    rw [earlierPolls, List.count_append, List.count_append, List.count_replicate_self, poll, ih, List.sum_cons, Nat.add_zero]

/-- R133: polling leaves the transform undisturbed, however far it has come. -/
theorem undisturbed_earlierPolls (turns : List Nat) (n : Nat) : undisturbed n (earlierPolls turns) = true := by
  induction turns generalizing n with
  | nil => rfl
  | cons k turns ih =>
    have poll : decodeCommand 0x400#11 ≠ .clr := by decide
    rw [earlierPolls, List.append_assoc]
    induction k generalizing n with
    | zero =>
      show ((decodeCommand 0x400#11 != .clr || _) && undisturbed n (earlierPolls turns)) = true
      rw [bne_iff_ne.mpr poll, ih n]
      rfl
    | succ k ihk => exact ihk (n - 1)

/-- The reads of `XFORM` once the engine has stopped: the last poll and `GETD` (R71). -/
def resultReads : List Instr := .rds :: (List.range 32).map fun k => .rdd (BitVec.ofNat 5 k)

theorem resultReads_isRead : ∀ i ∈ resultReads, i = .rds ∨ ∃ k, i = .rdd k := by
  intro i mem
  rcases List.mem_cons.mp mem with rfl | rdd
  · exact .inl rfl
  · obtain ⟨k, -, rfl⟩ := List.mem_map.mp rdd
    exact .inr ⟨_, rfl⟩

/-- R121, R122: they answer the status and the 32 bytes of the digest register. -/
theorem map_answer_resultReads (e : Engine) : resultReads.map e.answer = e.status :: e.dg.toList := by
  rw [resultReads, List.map_cons, List.map_map]
  refine congrArg (e.status :: ·) (List.ext_getElem (by simp) fun k h h' => ?_)
  have below : k < 32 := by simpa using h
  have index : (BitVec.ofNat 5 k).toNat = k := Nat.mod_eq_of_lt below
  simp [Engine.answer, index]

/-- R71: `XFORM` as the events of a transform between the `CLR` and the reads. -/
theorem pseudoXform_eq (B : List Byte) (turns : List Nat) : pseudoXform B turns =
    issue .clr ++ (pseudoLoad B ++ .cmd 0x200#11 :: (earlierPolls turns ++ resultReads.flatMap issue)) := by
  have reads : resultReads.flatMap issue = issue .rds ++ pseudoGetd := by
    rw [resultReads, List.flatMap_cons, List.flatMap_map]
    rfl
  have start : issue .start = [.cmd 0x200#11] := rfl
  rw [pseudoXform, pseudoWait_eq, reads, start]
  simp only [List.append_assoc, List.cons_append, List.nil_append]

/-- Settles O59. -/
theorem xformAnswersTheDigest : Obligations.XformAnswersTheDigest := by
  intro B turns s waiting events enough
  obtain ⟨pushed, -⟩ := pushedBytes_pseudoLoad B
  rw [pseudoXform_eq] at events
  have cleared := step_of_issue (i := .clr) rfl rfl events
  rw [Engine.afterCommand_clr_of_waiting waiting] at cleared
  obtain ⟨t, n, run, inputs, works, atMost⟩ := runSteps_of_transform (m := 0) (s := ⟨Engine.reset, _, _, _⟩) (w := 0x200#11)
    pushed rfl (undisturbed_earlierPolls turns (engineSteps B)) (by rw [earlierPolls_count_turn, Nat.zero_add]; exact enough) rfl rfl
  have stopped : t.engine = Engine.stopped B := by
    rcases works.cases_turn with ⟨-, same⟩ | ⟨k, rfl, -⟩
    · exact same
    · cases atMost
  have reads := runSteps_of_reads (rest := []) resultReads_isRead (inputs.trans (List.append_nil _).symm)
  rw [stopped, map_answer_resultReads] at reads
  have whole := (runSteps_succ_of_step cleared _).trans (runSteps_trans run reads)
  have steps : s.inputs.length = (pseudoLoad B).length + 1 + (earlierPolls turns).length + resultReads.length + 1 := by
    have clr : (issue .clr).length = 1 := rfl
    have oneWordEach : (resultReads.flatMap issue).length = resultReads.length := by decide
    simp only [events, List.length_append, List.length_cons, clr, oneWordEach]
    omega
  rw [← steps] at whole
  have last33 (status : Byte) (dg : Vector Byte 32) (earlier : List Byte) :
      (((status :: dg.toList).reverse ++ earlier).take 33).reverse = status :: dg.toList := by
    rw [List.take_left' (by simp), List.reverse_reverse]
  refine ⟨_, whole, rfl, rfl, fun valid => ?_, fun invalid => ?_⟩
  · obtain ⟨-, status, dg, -⟩ := Engine.stopped_of_valid valid
    rw [last33, status, dg]
  · obtain ⟨-, status, -, -, dg, -⟩ := Engine.stopped_of_invalid invalid
    rw [last33, status, dg]
    rfl

end Sys2Proof.Machine
end
